-- ==== Sys2Proof/Word.lean ====
section
/-! DEFINITION. The plain types of values the block holds and takes. A `pc` operand (`PC_W` bits, an open
parameter: 00_scope.md R10, 30_encoding.md R64), a history register (of a configured width: 10_state.md R28) and a
command word are unsigned integers whose widths are parameters, so each is a `Nat`, bit 0 its least significant bit
(00_scope.md R12); their bounds are `Instr.wellFormed` and the invariant in Safety.lean. -/

namespace Sys2Proof

/-- A 2-bit saturating counter (10_state.md R27). -/
abbrev Ctr := BitVec 2

/-- An outcome or a prediction: `true` is `Taken`, the bit 1; `false` is `NotTaken`, the bit 0
(00_scope.md R13). -/
abbrev Dir := Bool

end Sys2Proof
end

