-- ==== Sys2Proof/Config.lean ====
section
/-! DEFINITION. What the implementation fixes: constants of the spec's parameters, and the setup values the
host chooses before the first command. -/

namespace Sys2Proof.Config

/-- The `PC_W` for which spec/opcode_table.json is written, its rows being 35-bit words
(30_encoding.md R68). It is also the width `State.reset` names (PRESUMED, notes/assumptions/3.md). -/
def tablePcW : Nat := 32

/-- `SW`, the storage width of a Custom option counter (00_scope.md R11). The machine computes on natural
numbers (10_state.md R30); the invariant says that this width holds them. -/
def sw : Nat := 2

/-! The setup value of each `CFG` register in `State.reset` (DESIGN CHOICE, notes/assumptions/2.md): the
configuration of program P4 of 95_test_vectors.md. -/

def setupVariant : Nat := 0
def setupN : Nat := 1
def setupL : Nat := 1
def setupP : Nat := 1
def setupW : Nat := 1

end Sys2Proof.Config
end

