-- ==== Sys2Proof/Syntax.lean ====
section
/-! DEFINITION. The four commands of the block (30_encoding.md R62). -/

namespace Sys2Proof

/-- A command, one constructor per row of spec/opcode_table.json. Fields of the word that a command does not
use (30_encoding.md R66) are no part of it. -/
inductive Instr where
  /-- `NOP`, 45_interface_ops.md R109. -/
  | nop
  /-- `PREDICT`, 45_interface_ops.md R106. -/
  | predict (pc : Nat)
  /-- `TRAIN`, 45_interface_ops.md R107; `o` is the true outcome. -/
  | train (pc : Nat) (o : Dir)
  /-- `INIT`, 45_interface_ops.md R108. -/
  | init
deriving DecidableEq, Repr

/-- The value of a command word's `op` field, by name (30_encoding.md R62). -/
inductive Op where
  | nop
  | predict
  | train
  | init
deriving DecidableEq, Repr

/-- The `op` of a command. -/
def Instr.op : Instr → Op
  | .nop => .nop
  | .predict _ => .predict
  | .train _ _ => .train
  | .init => .init

end Sys2Proof
end

