-- ==== Sys2Proof/WellFormed.lean ====
section
/-! DEFINITION. Which commands fit in a command word: the `pc` operand is a `PC_W`-bit value
(30_encoding.md R61, R71). -/

namespace Sys2Proof

/-- The command's operands fit their fields when `pc` has `pcW` bits. -/
def Instr.wellFormed (pcW : Nat) : Instr → Bool
  | .nop => true
  | .predict pc => decide (pc < 2 ^ pcW)
  | .train pc _ => decide (pc < 2 ^ pcW)
  | .init => true

end Sys2Proof
end

