-- ==== Sys2Proof/Decode.lean ====
section
/-! DEFINITION. The command word's decoder and encoder (30_encoding.md R61, R62). -/

namespace Sys2Proof

/-- Why a number is no command word. -/
inductive DecodeError where
  /-- The number has a bit at or above `CW = PC_W + 3`, so it is no `CW`-bit word (R61). -/
  | wordTooWide
deriving DecidableEq, Repr

/-- `CW`, the width of a command word (R61). -/
def cmdWidth (pcW : Nat) : Nat := pcW + 3

/-- The `pc` field, bits `PC_W-1 : 0`, an unsigned integer, neither sign-extended nor scaled (R61, R64). -/
def pcField (pcW : Nat) (cmd : Nat) : Nat := cmd % 2 ^ pcW

/-- The `o` field, bit `PC_W` (R61, R65). -/
def outcomeField (pcW : Nat) (cmd : Nat) : Dir := cmd.testBit pcW

/-- The `op` field, bits `PC_W+2 : PC_W+1`, as the command it selects (R62). -/
def opField (pcW : Nat) (cmd : Nat) : Op :=
  match cmd.testBit (pcW + 2), cmd.testBit (pcW + 1) with
  | false, false => .nop
  | false, true => .predict
  | true, false => .train
  | true, true => .init

/-- The command a word stands for. Every `CW`-bit word is one (R62, R68); a wider number is refused by name. -/
def decode (pcW : Nat) (cmd : Nat) : Except DecodeError Instr :=
  if cmd < 2 ^ cmdWidth pcW then
    match opField pcW cmd with
    | .nop => .ok .nop
    | .predict => .ok (.predict (pcField pcW cmd))
    | .train => .ok (.train (pcField pcW cmd) (outcomeField pcW cmd))
    | .init => .ok .init
  else .error .wordTooWide

/-- The two bits of an `op`, as a number (R62). -/
def opBits : Op → Nat
  | .nop => 0
  | .predict => 1
  | .train => 2
  | .init => 3

/-- The word with the fields `op`, `o` and `pc` in the places R61 gives them. -/
def packWord (pcW : Nat) (op : Op) (o : Dir) (pc : Nat) : Nat :=
  (opBits op * 2 + o.toNat) * 2 ^ pcW + pc

/-- The word of a command, with 0 in every field it does not use (R66). -/
def encode (pcW : Nat) : Instr → Nat
  | .nop => packWord pcW .nop false 0
  | .predict pc => packWord pcW .predict false pc
  | .train pc o => packWord pcW .train o pc
  | .init => packWord pcW .init false 0

/-- The bits of `w` that a table row of `nbits` bits gives, every bit above them 0. -/
def tableWord (nbits w : Nat) : Nat := w % 2 ^ nbits

/-- The command the decoder reads from a word numbered as spec/opcode_table.json numbers it (`PC_W = 32`, R68). -/
def decodeTableWord (nbits w : Nat) : Option Instr :=
  match decode Config.tablePcW (tableWord nbits w) with
  | .ok i => some i
  | .error _ => none

end Sys2Proof
end

