-- ==== Sys2Proof/Machine/State.lean ====
section
/-! DEFINITION. Everything the spec gives one instance of the block, as plain data, and the state after reset. -/

namespace Sys2Proof.Machine

/-- The configuration registers, fixed at setup and read-only to every command (10_state.md R20 to R25). -/
structure Cfg where
  /-- `CFG.VARIANT`, the tag; legal values 0 to 3 (R20). -/
  variant : Nat
  /-- `CFG.N`, the width of `G` (R21). -/
  n : Nat
  /-- `CFG.L`, the width of a local history (R22). -/
  l : Nat
  /-- `CFG.P`, the PC-index width (R23). -/
  p : Nat
  /-- `CFG.W`, the width of `GS` (R24). -/
  w : Nat
deriving DecidableEq, Repr

/-- The four predictors (10_state.md R20). -/
inductive Variant where
  | static
  | gshare
  | tournament
  | custom
deriving DecidableEq, Repr

/-- `STATUS` (10_state.md R26). -/
inductive Status where
  /-- No `INIT` has completed. -/
  | uninit
  /-- The last `INIT` completed with a legal configuration. -/
  | ready
  /-- The last `INIT` found the configuration illegal. -/
  | configError
deriving DecidableEq, Repr

/-- A table of `2^width` entries: its entries that differ from what an unlisted index reads as, strictly
rising by index (20_memory.md R45, decision D22; notes/assumptions/9.md). -/
abbrev Table (α : Type) := List (Nat × α)

/-- One value for each Custom sub-predictor, in the priority order global, gshare-variant, local
(43_custom.md R94). A row of `S` is three option counters, natural numbers (10_state.md R30). -/
structure Three (α : Type) where
  glob : α
  gsv : α
  loc : α
deriving DecidableEq, Repr

/-- Gshare variant state (10_state.md R32). -/
structure GshareState where
  g : Nat
  t : Table Ctr
deriving DecidableEq, Repr

/-- Tournament variant state (10_state.md R33). -/
structure TournamentState where
  g : Nat
  tg : Table Ctr
  lh : Table Nat
  tl : Table Ctr
  c : Table Ctr
deriving DecidableEq, Repr

/-- Custom variant state (10_state.md R34). -/
structure CustomState where
  g : Nat
  gs : Nat
  tg : Table Ctr
  tgs : Table Ctr
  lh : Table Nat
  tl : Table Ctr
  s : Table (Three Nat)
deriving DecidableEq, Repr

/-- The variant state `VS`: that of the one selected variant (10_state.md R18). -/
inductive VarState where
  /-- The variant state does not exist, after a failed `INIT` (R44). -/
  | absent
  /-- Static has none (R31). -/
  | static
  | gshare (v : GshareState)
  | tournament (v : TournamentState)
  | custom (v : CustomState)
deriving DecidableEq, Repr

/-- The four checked widths (60_exceptions.md R113). -/
inductive Width where
  | n
  | l
  | p
  | w
deriving DecidableEq, Repr

/-- A failed configuration check (60_exceptions.md R113). -/
inductive Reason where
  | badVariant
  | zeroWidth (k : Width)
deriving DecidableEq, Repr

/-- A fault of the block: what a command answers when it fails (60_exceptions.md R112). It is a response, not
a stop of the machine (R118, R119). -/
inductive BlockFault where
  /-- Raised by `INIT`, with every failed check (R113); the set is listed in the order R113 adds to it. -/
  | configError (reasons : List Reason)
  /-- Raised by `PREDICT` and `TRAIN` after a failed `INIT` (R114). -/
  | configErrorSticky
  /-- Raised by `PREDICT` and `TRAIN` before the first `INIT`, with the command's `op` (R115). -/
  | notInitialized (op : Op)
deriving DecidableEq, Repr

/-- What the block answered to its last command (30_encoding.md R63). -/
inductive Response where
  /-- No command has been answered yet (DESIGN CHOICE, notes/assumptions/14.md). -/
  | idle
  /-- The command completed and answers no value. -/
  | noValue
  /-- `PREDICT` completed with this prediction. -/
  | pred (d : Dir)
  /-- The command faulted. -/
  | fault (f : BlockFault)
deriving DecidableEq, Repr

/-- One instance of the block (10_state.md R18) with its two ends of the host interface. -/
structure State where
  /-- `PC_W`, the open parameter (00_scope.md R10); no command writes it. -/
  pcW : Nat
  /-- The command words issued and not yet taken, oldest first (20_memory.md R56; notes/assumptions/4.md). -/
  port : List Nat
  cfg : Cfg
  status : Status
  vs : VarState
  /-- The response to the last command. -/
  resp : Response
deriving DecidableEq, Repr

/-- Why the machine stops. No state reached from reset or from power-on stops it. -/
inductive Fault where
  /-- `PREDICT` or `TRAIN` with `STATUS = READY` and a variant state that is not the one `CFG.VARIANT` selects:
  the spec has no such state (10_state.md R18, 45_interface_ops.md R105), so it gives no effect. Safe
  (notes/assumptions/8.md). -/
  | variantStateAbsent
deriving DecidableEq, Repr

/-- Why a command has no meaning. -/
inductive Refusal where
  /-- The dispatcher has no meaning for this row of the opcode table; no arm answers so. Safe. -/
  | notModelled (mnemonic : String)
  /-- Raised by `step` for a number on the port that is no `PC_W + 3`-bit word (30_encoding.md R61). Safe
  (notes/assumptions/7.md). -/
  | wordTooWide
deriving DecidableEq, Repr

/-- The setup configuration that `State.reset` names (notes/assumptions/2.md). -/
def Cfg.setup : Cfg :=
  { variant := Config.setupVariant, n := Config.setupN, l := Config.setupL, p := Config.setupP, w := Config.setupW }

/-- An instance between its setup and its first `INIT`: `STATUS = UNINIT`, and a variant state of which nothing
is assumed (10_state.md R43; notes/assumptions/12.md), so it is an argument. -/
def State.powerOn (pcW : Nat) (cfg : Cfg) (vs : VarState) : State :=
  { pcW := pcW, port := [], cfg := cfg, status := .uninit, vs := vs, resp := .idle }

/-- The state after reset. The block's reset is a successful `INIT` (70_reset_and_hazards.md R124, 10_state.md
section 10), here of the setup configuration, whose variant is Static (R42); notes/assumptions/1.md. -/
def State.reset : State :=
  { pcW := Config.tablePcW, port := [], cfg := Cfg.setup, status := .ready, vs := .static, resp := .noValue }

end Sys2Proof.Machine
end

