-- ==== Sys2Proof/Machine/Operands.lean ====
section
/-! DEFINITION. The operand forms: masks, the history shift and the table index functions
(40_primitives.md sections 2 and 3). -/

namespace Sys2Proof.Machine

/-- `mask(k)`, bits `k-1..0` set (00_scope.md R12). -/
def mask (k : Nat) : Nat := 2 ^ k - 1

/-- `shift(h, o, k)`: the update of a `k`-bit history by outcome `o`, which becomes bit 0 (R76). -/
def shiftHist (h : Nat) (o : Dir) (k : Nat) : Nat := ((h <<< 1) ||| o.toNat) &&& mask k

/-- `pc_index(pc)`: the row of `LH` and `S` (R79). -/
def pcIndex (cfg : Cfg) (pc : Nat) : Nat := pc &&& mask cfg.p

/-- `gshare_index(pc, G)`: the entry of `T` (R80). -/
def gshareIndex (cfg : Cfg) (pc : Nat) (g : Nat) : Nat := (pc &&& mask cfg.n) ^^^ g

/-- `gsvar_index(pc, GS)`: the entry of `TGS` (R81). -/
def gsvarIndex (cfg : Cfg) (pc : Nat) (gs : Nat) : Nat := (pc ^^^ gs) &&& mask cfg.w

/-- The variant a tag names, if it is one of the four (10_state.md R20). -/
def variantOfTag : Nat → Option Variant
  | 0 => some .static
  | 1 => some .gshare
  | 2 => some .tournament
  | 3 => some .custom
  | _ => none

/-- The configured value of a checked width. -/
def widthOf (cfg : Cfg) : Width → Nat
  | .n => cfg.n
  | .l => cfg.l
  | .p => cfg.p
  | .w => cfg.w

end Sys2Proof.Machine
end

