-- ==== Sys2Proof/Machine/Flags.lean ====
section
/-! DEFINITION. The block's one flag, `STATUS`: what a command reads from it and what `INIT` checks before it
writes it (45_interface_ops.md R105, 60_exceptions.md R112 to R115). There are no condition codes
(10_state.md R26). -/

namespace Sys2Proof.Machine

/-- The fault `STATUS` makes a `PREDICT` or `TRAIN` raise, if any (R105). -/
def statusFault (op : Op) : Status → Option BlockFault
  | .uninit => some (.notInitialized op)
  | .configError => some .configErrorSticky
  | .ready => none

/-- The check of one width. -/
def checkWidth (cfg : Cfg) (k : Width) : List Reason :=
  if widthOf cfg k = 0 then [.zeroWidth k] else []

/-- The check of the variant tag. -/
def checkVariant (cfg : Cfg) : List Reason :=
  match variantOfTag cfg.variant with
  | some _ => []
  | none => [.badVariant]

/-- `configCheck(CFG)`: the failed checks, none when the configuration is legal (R113). -/
def configCheck (cfg : Cfg) : List Reason :=
  checkVariant cfg ++ checkWidth cfg .n ++ checkWidth cfg .l ++ checkWidth cfg .p ++ checkWidth cfg .w

/-- The code of a fault (R112). -/
def faultCode : BlockFault → Nat
  | .configError _ => 1
  | .configErrorSticky => 1
  | .notInitialized _ => 2

end Sys2Proof.Machine
end

