-- ==== Sys2Proof/Machine/Ops.lean ====
section
/-! DEFINITION. The shared operations: table access, the counters and arbiters, answering a command, raising a
fault, the reset of the variant state, and the command port. -/

namespace Sys2Proof.Machine

/-! ### Tables (20_memory.md R46, R47) -/

/-- Entry `i` of a table whose unlisted entries read as `d`. -/
def tabRead {α : Type} (d : α) : Table α → Nat → α
  | [], _ => d
  | (k, v) :: rest, i => if k = i then v else tabRead d rest i

/-- The list with its entry for `i`, if any, taken out. -/
def tabErase {α : Type} : Table α → Nat → Table α
  | [], _ => []
  | (k, v) :: rest, i => if k = i then tabErase rest i else (k, v) :: tabErase rest i

/-- The list with `(i, v)` put before the first greater index. -/
def tabInsert {α : Type} : Table α → Nat → α → Table α
  | [], i, v => [(i, v)]
  | (k, u) :: rest, i, v => if i < k then (i, v) :: (k, u) :: rest else (k, u) :: tabInsert rest i v

/-- The table with entry `i` replaced by `v`; an entry equal to `d` is not listed. -/
def tabWrite {α : Type} [DecidableEq α] (d : α) (t : Table α) (i : Nat) (v : α) : Table α :=
  if v = d then tabErase t i else tabInsert (tabErase t i) i v

/-- The canonical form of a table of `size` entries whose unlisted entries read as `d`, every listed entry
meeting `ok`: indices strictly rise, all below `size`, and no entry equals `d`. -/
abbrev tabWf {α : Type} [DecidableEq α] (d : α) (ok : α → Bool) (size : Nat) (t : Table α) : Prop :=
  t.Pairwise (fun a b => a.1 < b.1) ∧ ∀ e ∈ t, e.1 < size ∧ e.2 ≠ d ∧ ok e.2 = true

/-! ### What `INIT` writes to each kind of entry, which is what an unlisted entry reads as (10_state.md
section 10) -/

/-- The four states of a pattern-table counter (10_state.md R27). -/
def stronglyNotTaken : Ctr := 0
def weaklyNotTaken : Ctr := 1
def weaklyTaken : Ctr := 2
def stronglyTaken : Ctr := 3

/-- The initial choice counter, which favours global (R40). -/
def choiceInit : Ctr := 1

/-- The initial local history (R40, R41). -/
def histInit : Nat := 0

/-- The initial row of option counters (R41). -/
def rowInit : Three Nat := { glob := 3, gsv := 3, loc := 3 }

/-- Read a pattern table (`T`, `TG`, `TGS`, `TL`). -/
def readCtr (t : Table Ctr) (i : Nat) : Ctr := tabRead weaklyTaken t i
def writeCtr (t : Table Ctr) (i : Nat) (v : Ctr) : Table Ctr := tabWrite weaklyTaken t i v

/-- Read the choice table `C`. -/
def readChoice (t : Table Ctr) (i : Nat) : Ctr := tabRead choiceInit t i
def writeChoice (t : Table Ctr) (i : Nat) (v : Ctr) : Table Ctr := tabWrite choiceInit t i v

/-- Read the local history table `LH`. -/
def readHist (t : Table Nat) (i : Nat) : Nat := tabRead histInit t i
def writeHist (t : Table Nat) (i : Nat) (v : Nat) : Table Nat := tabWrite histInit t i v

/-- Read a row of the option-confidence array `S`. -/
def readRow (t : Table (Three Nat)) (i : Nat) : Three Nat := tabRead rowInit t i
def writeRow (t : Table (Three Nat)) (i : Nat) (v : Three Nat) : Table (Three Nat) := tabWrite rowInit t i v

/-! ### Counters and arbiters -/

/-- `advance(c, o)`, the saturating-counter transition (40_primitives.md R73). -/
def advance (c : Ctr) (o : Dir) : Ctr :=
  if o = true ∧ c.toNat < 3 then c + 1
  else if o = false ∧ 0 < c.toNat then c - 1
  else c

/-- `ctrPredict(c)`, the counter's prediction (40_primitives.md R74). -/
def ctrPredict (c : Ctr) : Dir := decide (2 ≤ c.toNat)

/-- The choice arbiter trusts the local sub-predictor (42_tournament.md R88, 10_state.md R29). -/
def trustsLocal (c : Ctr) : Bool := decide (2 ≤ c.toNat)

/-- `choiceUpdate(c, gOk, lOk)` (42_tournament.md R89). -/
def choiceUpdate (c : Ctr) (gOk lOk : Bool) : Ctr :=
  if lOk = true ∧ gOk = false then BitVec.ofNat 2 (min (c.toNat + 1) 3)
  else if gOk = true ∧ lOk = false then BitVec.ofNat 2 (c.toNat - 1)
  else c

/-- The value of sub-predictor `k`. -/
def Three.get {α : Type} (x : Three α) (k : Fin 3) : α :=
  match k with
  | 0 => x.glob
  | 1 => x.gsv
  | 2 => x.loc

/-- `select(row)`: the first option, by position, whose counter equals 3 (43_custom.md R95, R96). -/
def selectOption (row : Three Nat) : Option (Fin 3) :=
  if row.glob = 3 then some 0
  else if row.gsv = 3 then some 1
  else if row.loc = 3 then some 2
  else none

/-- Some option both matched and is confident (43_custom.md R97). -/
def confidentRight (row : Three Nat) (m : Three Bool) : Bool :=
  (m.glob && row.glob == 3) || (m.gsv && row.gsv == 3) || (m.loc && row.loc == 3)

/-- One option counter's new value; `shield` says that a confident option was right (43_custom.md R97). -/
def scoreOne (shield : Bool) (c : Nat) (m : Bool) : Nat :=
  if shield then (if m then c else c - 1) else (if m then c + 1 else c)

/-- `scoreUpdate(row, m)`, over natural numbers and without a cap (43_custom.md R97). -/
def scoreUpdate (row : Three Nat) (m : Three Bool) : Three Nat :=
  { glob := scoreOne (confidentRight row m) row.glob m.glob
    gsv := scoreOne (confidentRight row m) row.gsv m.gsv
    loc := scoreOne (confidentRight row m) row.loc m.loc }

/-! ### Answering, faulting and resetting -/

/-- The command's response is `r` (30_encoding.md R63). -/
def State.answer (s : State) (r : Response) : State := { s with resp := r }

/-- The variant state becomes `vs`. -/
def State.withVs (s : State) (vs : VarState) : State := { s with vs := vs }

/-- `STATUS` becomes `st`. -/
def State.withStatus (s : State) (st : Status) : State := { s with status := st }

/-- The pending command words become `p`. -/
def State.withPort (s : State) (p : List Nat) : State := { s with port := p }

/-- `raise f`: the command ends with the fault as its response; nothing is saved, no mode changes and there is
no handler (60_exceptions.md R118). No command returns from it: the next command simply follows (R119). -/
def raiseFault (f : BlockFault) (s : State) : State := s.answer (.fault f)

/-- The variant state a successful `INIT` writes (10_state.md R39 to R42). -/
def initVarState : Variant → VarState
  | .static => .static
  | .gshare => .gshare { g := 0, t := [] }
  | .tournament => .tournament { g := 0, tg := [], lh := [], tl := [], c := [] }
  | .custom => .custom { g := 0, gs := 0, tg := [], tgs := [], lh := [], tl := [], s := [] }

/-- `INIT` with a legal configuration (45_interface_ops.md R108). -/
def initSucceed (var : Variant) (s : State) : State :=
  ((s.withStatus .ready).withVs (initVarState var)).answer .noValue

/-- `INIT` with an illegal configuration: `STATUS <- CONFIG_ERROR`, the variant state no longer exists
(45_interface_ops.md R108, 10_state.md R44). -/
def initFail (reasons : List Reason) (s : State) : State :=
  raiseFault (.configError reasons) ((s.withStatus .configError).withVs .absent)

/-! ### The command port -/

/-- The host issues a command word (70_reset_and_hazards.md R131). -/
def State.issue (s : State) (w : Nat) : State := s.withPort (s.port ++ [w])

/-- The oldest pending word and the state without it, if there is one (20_memory.md R56). -/
def fetch (s : State) : Option (Nat × State) :=
  match s.port with
  | [] => none
  | w :: rest => some (w, s.withPort rest)

/-! ### Size of the state -/

/-- The number of state bits of the selected variant, excluding `CFG` and `STATUS` (10_state.md R38). -/
def stateBits (cfg : Cfg) : Variant → Nat
  | .static => 0
  | .gshare => cfg.n + 2 * 2 ^ cfg.n
  | .tournament => cfg.n + 2 * 2 ^ cfg.n + cfg.l * 2 ^ cfg.p + 2 * 2 ^ cfg.l + 2 * 2 ^ cfg.n
  | .custom =>
    cfg.n + 2 * 2 ^ cfg.n + cfg.w + 2 * 2 ^ cfg.w + cfg.l * 2 ^ cfg.p + 2 * 2 ^ cfg.l
      + 3 * Config.sw * 2 ^ cfg.p

end Sys2Proof.Machine
end

