-- ==== Sys2Proof/Machine/Custom.lean ====
section
/-! DEFINITION. The Custom variant, the three-way adaptive selector (43_custom.md). -/

namespace Sys2Proof.Machine

/-- The predictions of the three sub-predictors at `pc` (R94). -/
def customReads (cfg : Cfg) (v : CustomState) (pc : Nat) : Three Dir :=
  { glob := ctrPredict (readCtr v.tg v.g)
    gsv := ctrPredict (readCtr v.tgs (gsvarIndex cfg pc v.gs))
    loc := ctrPredict (readCtr v.tl (readHist v.lh (pcIndex cfg pc))) }

/-- `CUSTOM.PREDICT` (R98); with no confident option the answer is `NotTaken`. -/
def customPredict (cfg : Cfg) (v : CustomState) (pc : Nat) : Dir :=
  match selectOption (readRow v.s (pcIndex cfg pc)) with
  | some k => (customReads cfg v pc).get k
  | none => false

/-- The match bits `m[i] = (p[i] = o)` (R97). -/
def matchBits (p : Three Dir) (o : Dir) : Three Bool :=
  { glob := p.glob == o, gsv := p.gsv == o, loc := p.loc == o }

/-- `CUSTOM.TRAIN` (R99): every read is of `v`, the state before the command (20_memory.md R55). -/
def customTrain (cfg : Cfg) (v : CustomState) (pc : Nat) (o : Dir) : CustomState :=
  let li := pcIndex cfg pc
  let lh := readHist v.lh li
  let gsIdx := gsvarIndex cfg pc v.gs
  { tg := writeCtr v.tg v.g (advance (readCtr v.tg v.g) o)
    tgs := writeCtr v.tgs gsIdx (advance (readCtr v.tgs gsIdx) o)
    tl := writeCtr v.tl lh (advance (readCtr v.tl lh) o)
    s := writeRow v.s li (scoreUpdate (readRow v.s li) (matchBits (customReads cfg v pc) o))
    lh := writeHist v.lh li (shiftHist lh o cfg.l)
    g := shiftHist v.g o cfg.n
    gs := shiftHist v.gs o cfg.w }

end Sys2Proof.Machine
end

