-- ==== Sys2Proof/Machine/Gshare.lean ====
section
/-! DEFINITION. The Gshare variant (41_gshare.md). -/

namespace Sys2Proof.Machine

/-- `GSHARE.PREDICT` (R84). -/
def gsharePredict (cfg : Cfg) (v : GshareState) (pc : Nat) : Dir :=
  ctrPredict (readCtr v.t (gshareIndex cfg pc v.g))

/-- `GSHARE.TRAIN` (R85): every read is of `v`, the state before the command (20_memory.md R55). -/
def gshareTrain (cfg : Cfg) (v : GshareState) (pc : Nat) (o : Dir) : GshareState :=
  let idx := gshareIndex cfg pc v.g
  { t := writeCtr v.t idx (advance (readCtr v.t idx) o)
    g := shiftHist v.g o cfg.n }

end Sys2Proof.Machine
end

