-- ==== Sys2Proof/Machine/Static.lean ====
section
/-! DEFINITION. The Static variant (44_static.md). -/

namespace Sys2Proof.Machine

/-- `STATIC.PREDICT`: `Taken`, for every `pc` (R103). -/
def staticPredict (_pc : Nat) : Dir := true

/-- `STATIC.TRAIN`: no state is read or written (R104). -/
def staticTrain (_pc : Nat) (_o : Dir) : VarState := .static

end Sys2Proof.Machine
end

