-- ==== Sys2Proof/Machine/Tournament.lean ====
section
/-! DEFINITION. The Tournament variant (42_tournament.md). -/

namespace Sys2Proof.Machine

/-- The global sub-predictor's prediction, from `TG[G]` (40_primitives.md R82). -/
def tournGlobal (v : TournamentState) : Dir := ctrPredict (readCtr v.tg v.g)

/-- The local sub-predictor's prediction, from `TL[LH[pc & mask(P)]]` (40_primitives.md R83). -/
def tournLocal (cfg : Cfg) (v : TournamentState) (pc : Nat) : Dir :=
  ctrPredict (readCtr v.tl (readHist v.lh (pcIndex cfg pc)))

/-- `TOURN.PREDICT` (R90). -/
def tournPredict (cfg : Cfg) (v : TournamentState) (pc : Nat) : Dir :=
  if trustsLocal (readChoice v.c v.g) then tournLocal cfg v pc else tournGlobal v

/-- `TOURN.TRAIN` (R91): every read is of `v`, the state before the command (20_memory.md R55). -/
def tournTrain (cfg : Cfg) (v : TournamentState) (pc : Nat) (o : Dir) : TournamentState :=
  let li := pcIndex cfg pc
  let lh := readHist v.lh li
  { tg := writeCtr v.tg v.g (advance (readCtr v.tg v.g) o)
    tl := writeCtr v.tl lh (advance (readCtr v.tl lh) o)
    c := writeChoice v.c v.g (choiceUpdate (readChoice v.c v.g) (tournGlobal v == o) (tournLocal cfg v pc == o))
    lh := writeHist v.lh li (shiftHist lh o cfg.l)
    g := shiftHist v.g o cfg.n }

end Sys2Proof.Machine
end

