-- ==== Sys2Proof/Machine/Interface.lean ====
section
/-! DEFINITION. The four commands and the dispatch to the configured variant (45_interface_ops.md). -/

namespace Sys2Proof.Machine

/-- `<variant>.PREDICT(pc)` for the variant `CFG.VARIANT` selects (R105); none where `vs` is not that variant's
state. -/
def predictOf (cfg : Cfg) (vs : VarState) (pc : Nat) : Option Dir :=
  match variantOfTag cfg.variant, vs with
  | some .static, .static => some (staticPredict pc)
  | some .gshare, .gshare v => some (gsharePredict cfg v pc)
  | some .tournament, .tournament v => some (tournPredict cfg v pc)
  | some .custom, .custom v => some (customPredict cfg v pc)
  | _, _ => none

/-- `<variant>.TRAIN(pc, o)`: the variant state after it (R105); none where `vs` is not that variant's state. -/
def trainOf (cfg : Cfg) (vs : VarState) (pc : Nat) (o : Dir) : Option VarState :=
  match variantOfTag cfg.variant, vs with
  | some .static, .static => some (staticTrain pc o)
  | some .gshare, .gshare v => some (.gshare (gshareTrain cfg v pc o))
  | some .tournament, .tournament v => some (.tournament (tournTrain cfg v pc o))
  | some .custom, .custom v => some (.custom (customTrain cfg v pc o))
  | _, _ => none

/-- `NOP`: no state is read or written, in every `STATUS`; it answers no value (R109, 30_encoding.md R63). -/
def execNop (s : State) : Host.Outcome State Fault Refusal := .next (s.answer .noValue)

/-- `PREDICT` (R105, R106): it writes no state and answers the prediction, or the fault `STATUS` raises. -/
def execPredict (pc : Nat) (s : State) : Host.Outcome State Fault Refusal :=
  match statusFault .predict s.status with
  | some f => .next (raiseFault f s)
  | none =>
    match predictOf s.cfg s.vs pc with
    | some d => .next (s.answer (.pred d))
    | none => .fault .variantStateAbsent

/-- `TRAIN` (R105, R107): it writes the variant's elements and answers no value, or the fault `STATUS` raises. -/
def execTrain (pc : Nat) (o : Dir) (s : State) : Host.Outcome State Fault Refusal :=
  match statusFault .train s.status with
  | some f => .next (raiseFault f s)
  | none =>
    match trainOf s.cfg s.vs pc o with
    | some vs => .next ((s.withVs vs).answer .noValue)
    | none => .fault .variantStateAbsent

/-- `INIT` (R108): it checks `CFG` and writes `STATUS` and every element of the variant state. With no
failed check the tag names a variant (60_exceptions.md R113), so the second arm is exactly the failing `INIT`. -/
def execInit (s : State) : Host.Outcome State Fault Refusal :=
  match configCheck s.cfg, variantOfTag s.cfg.variant with
  | [], some var => .next (initSucceed var s)
  | reasons, _ => .next (initFail reasons s)

end Sys2Proof.Machine
end

