-- ==== Sys2Proof/Machine/Dispatch.lean ====
section
/-! DEFINITION. One arm per command (45_interface_ops.md R105). -/

namespace Sys2Proof.Machine

def exec (i : Instr) (s : State) : Host.Outcome State Fault Refusal :=
  match i with
  | .nop => Sys2Proof.Machine.execNop s
  | .predict pc => Sys2Proof.Machine.execPredict pc s
  | .train pc o => Sys2Proof.Machine.execTrain pc o s
  | .init => Sys2Proof.Machine.execInit s

end Sys2Proof.Machine
end

