-- ==== Sys2Proof/Machine/Step.lean ====
section
/-! DEFINITION. One step: the block takes the oldest command word on its port, decodes it and executes it as one
atomic transaction (20_memory.md R54, R56). -/

namespace Sys2Proof.Machine

/-- One step. With no command pending the block does nothing (DESIGN CHOICE, notes/assumptions/5.md). -/
def step (s : State) : Host.Outcome State Fault Refusal :=
  match fetch s with
  | none => .next s
  | some (w, s') =>
    match decode s.pcW w with
    | .ok i => exec i s'
    | .error .wordTooWide => .refused .wordTooWide

/-- `s` with the table's word `w` of `nbits` bits issued ahead of every other pending command, and `PC_W` the
width the table is written for, so that the next step decodes it as the table numbers it
(notes/assumptions/17.md). -/
def State.withFetchWord (s : State) (nbits w : Nat) : State :=
  { s with pcW := Config.tablePcW, port := tableWord nbits w :: s.port }

end Sys2Proof.Machine
end

