-- ==== Sys2Proof/Safety.lean ====
section
/-! DEFINITION. The terms in which claims are made: the invariant of the machine, runs of commands, and the
host's call protocol. -/

namespace Sys2Proof.Machine

/-! ### The invariant -/

/-- A pattern table of `2^k` counters in canonical form. -/
abbrev ctrTabWf (k : Nat) (t : Table Ctr) : Prop := tabWf weaklyTaken (fun _ => true) (2 ^ k) t

/-- The choice table of `2^k` counters in canonical form. -/
abbrev choiceTabWf (k : Nat) (t : Table Ctr) : Prop := tabWf choiceInit (fun _ => true) (2 ^ k) t

/-- The local history table: `2^p` histories of `l` bits (10_state.md R28). -/
abbrev histTabWf (p l : Nat) (t : Table Nat) : Prop := tabWf histInit (fun h => decide (h < 2 ^ l)) (2 ^ p) t

/-- A row of option counters as reached from reset: each fits the storage width `SW` (43_custom.md R100), and one
of them is 3 (R101). -/
def rowOk (r : Three Nat) : Bool :=
  (decide (r.glob < 2 ^ Config.sw) && decide (r.gsv < 2 ^ Config.sw) && decide (r.loc < 2 ^ Config.sw))
    && (r.glob == 3 || r.gsv == 3 || r.loc == 3)

/-- The option-confidence array of `2^p` rows. -/
abbrev rowTabWf (p : Nat) (t : Table (Three Nat)) : Prop := tabWf rowInit rowOk (2 ^ p) t

/-- Gshare variant state of the sizes `CFG` gives (10_state.md R32). -/
structure GshareOk (cfg : Cfg) (v : GshareState) : Prop where
  g : v.g < 2 ^ cfg.n
  t : ctrTabWf cfg.n v.t

/-- Tournament variant state of the sizes `CFG` gives (10_state.md R33). -/
structure TournamentOk (cfg : Cfg) (v : TournamentState) : Prop where
  g : v.g < 2 ^ cfg.n
  tg : ctrTabWf cfg.n v.tg
  lh : histTabWf cfg.p cfg.l v.lh
  tl : ctrTabWf cfg.l v.tl
  c : choiceTabWf cfg.n v.c

/-- Custom variant state of the sizes `CFG` gives (10_state.md R34). -/
structure CustomOk (cfg : Cfg) (v : CustomState) : Prop where
  g : v.g < 2 ^ cfg.n
  gs : v.gs < 2 ^ cfg.w
  tg : ctrTabWf cfg.n v.tg
  tgs : ctrTabWf cfg.w v.tgs
  lh : histTabWf cfg.p cfg.l v.lh
  tl : ctrTabWf cfg.l v.tl
  s : rowTabWf cfg.p v.s

/-- `vs` is the state of the variant `CFG.VARIANT` selects, of the configured sizes (10_state.md R18). -/
def varStateOk (cfg : Cfg) (vs : VarState) : Prop :=
  match variantOfTag cfg.variant, vs with
  | some .static, .static => True
  | some .gshare, .gshare v => GshareOk cfg v
  | some .tournament, .tournament v => TournamentOk cfg v
  | some .custom, .custom v => CustomOk cfg v
  | _, _ => False

/-- What `STATUS` says of the rest of the state (10_state.md R26, R43, R44). -/
def statusOk (s : State) : Prop :=
  match s.status with
  | .uninit => True
  | .ready => configCheck s.cfg = [] ∧ varStateOk s.cfg s.vs
  | .configError => configCheck s.cfg ≠ [] ∧ s.vs = .absent

/-- The invariant: `PC_W` is legal (00_scope.md R10), every pending number is a command word (30_encoding.md R61),
and `STATUS` tells the truth. -/
structure State.Inv (s : State) : Prop where
  pcW : 1 ≤ s.pcW
  port : ∀ w ∈ s.port, w < 2 ^ cmdWidth s.pcW
  status : statusOk s

/-! ### Runs -/

/-- The commands of a list executed in order, stopping where the machine stops (70_reset_and_hazards.md R132). -/
def execAll : List Instr → State → Host.Outcome State Fault Refusal
  | [], s => .next s
  | i :: rest, s =>
    match exec i s with
    | .next s' => execAll rest s'
    | .fault r => .fault r
    | .refused r => .refused r

/-- `k` steps of the machine, stopping where it stops. -/
def runSteps : Nat → State → Host.Outcome State Fault Refusal
  | 0, s => .next s
  | k + 1, s =>
    match step s with
    | .next s' => runSteps k s'
    | .fault r => .fault r
    | .refused r => .refused r

/-- The outcomes of the `TRAIN` commands of a list, oldest first. -/
def outcomesOf (is : List Instr) : List Dir :=
  is.filterMap fun i =>
    match i with
    | .train _ o => some o
    | .nop => none
    | .predict _ => none
    | .init => none

/-- The outcomes of the `TRAIN` commands of a list at PC-index `r`, oldest first. -/
def outcomesAt (cfg : Cfg) (r : Nat) (is : List Instr) : List Dir :=
  is.filterMap fun i =>
    match i with
    | .train pc o => if pcIndex cfg pc = r then some o else none
    | .nop => none
    | .predict _ => none
    | .init => none

/-! ### The call protocol -/

/-- The commands of one branch, its `pc` and its true outcome (R127, 30_encoding.md R72). -/
def branchCommands (b : Nat × Dir) : List Instr := [.predict b.1, .train b.1 b.2]

/-- The `PREDICT` and `TRAIN` commands of a list, which are those R127 orders. -/
def branchPart (is : List Instr) : List Instr :=
  is.filter fun i =>
    match i with
    | .predict _ => true
    | .train _ _ => true
    | .nop => false
    | .init => false

/-- The host's duty of 70_reset_and_hazards.md R127 on the rest of a command list, `pending` being the `pc` of a
`PREDICT` whose `TRAIN` is due. The block does not check it (R128). -/
def followsProtocol : Option Nat → List Instr → Bool
  | pending, [] => pending.isNone
  | pending, .nop :: rest => followsProtocol pending rest
  | pending, .init :: rest => followsProtocol pending rest
  | pending, .predict pc :: rest => pending.isNone && followsProtocol (some pc) rest
  | pending, .train pc _ :: rest => (pending == some pc) && followsProtocol none rest

end Sys2Proof.Machine
end

