-- ==== Sys2Proof/Certificates/Slice0/Obligations.lean ====
section
/-! DEFINITION. The statements for the provers. Each docstring names what of spec/ the statement formalises. Where
it names a decision (D<n> of 92_eei_decisions.md) or an inference of the spec, or an entry of the assumption log, the
statement rests on that choice. -/

open Sys2Proof Sys2Proof.Machine

/-! ### The command word -/

/-- 30_encoding.md section 1 (the spec's own decision D2): decoding the word of a well-formed command gives that
command back, with every operand at every value its field admits, for every `PC_W`. -/
def Obligations.DecodeEncodeRoundTrip : Prop :=
  ∀ (pcW : Nat) (i : Instr), i.wellFormed pcW = true → decode pcW (encode pcW i) = .ok i

/-- 30_encoding.md sections 1 to 3 (the spec's own decisions D2, D3, D4): every word of `PC_W + 3` bits decodes, to
the command its `op` bits select, with `pc` the low `PC_W` bits and `o` the bit above them. -/
def Obligations.EveryCommandWordDecodesByItsFields : Prop :=
  ∀ (pcW w : Nat), w < 2 ^ (pcW + 3) →
    decode pcW w = .ok
      (match w / 2 ^ (pcW + 1) with
        | 0 => Instr.nop
        | 1 => Instr.predict (w % 2 ^ pcW)
        | 2 => Instr.train (w % 2 ^ pcW) (decide (w / 2 ^ pcW % 2 = 1))
        | _ => Instr.init)

/-- 30_encoding.md section 3 (the spec's own decision D2): a decoded word has its command's `op` bits under the mask
`3 << (PC_W + 1)`, and a word that matches a row under that mask decodes to that row's command. -/
def Obligations.OpcodeMaskSelectsTheCommand : Prop :=
  ∀ (pcW w : Nat) (op : Op), w < 2 ^ (pcW + 3) →
    ((∃ i, decode pcW w = .ok i ∧ i.op = op) ↔
      w &&& (3 <<< (pcW + 1)) =
        (match op with
          | .nop => 0
          | .predict => 1
          | .train => 2
          | .init => 3) <<< (pcW + 1))

/-- 30_encoding.md section 2 (the spec's own decision D15): the fields a command does not use are ignored. Words with
the same `op` bits decode alike for `NOP` and `INIT` whatever their other bits, and for `PREDICT` whatever their `o`
bit. -/
def Obligations.DecodeIgnoresUnusedFields : Prop :=
  ∀ (pcW w w' : Nat), w < 2 ^ (pcW + 3) → w' < 2 ^ (pcW + 3) → w / 2 ^ (pcW + 1) = w' / 2 ^ (pcW + 1) →
    (w / 2 ^ (pcW + 1) = 0 ∨ w / 2 ^ (pcW + 1) = 3 → decode pcW w = decode pcW w') ∧
    (w / 2 ^ (pcW + 1) = 1 → w % 2 ^ pcW = w' % 2 ^ pcW → decode pcW w = decode pcW w')

/-- 30_encoding.md section 1 (the spec's own decision D2): no bit of a `TRAIN` word is dropped; a `TRAIN` command has
exactly one word. -/
def Obligations.TrainHasOneWord : Prop :=
  ∀ (pcW w pc : Nat) (o : Dir), decode pcW w = .ok (.train pc o) ↔ pc < 2 ^ pcW ∧ w = encode pcW (.train pc o)

/-- 30_encoding.md section 3, the spec's list of encodings with `PC_W = 32` (an inference the spec marks as derived),
read by the decoder. -/
def Obligations.ListedWordsDecodeToTheirCommands : Prop :=
  decode 32 0x200000004 = .ok (.predict 0x4) ∧
  decode 32 0x500000004 = .ok (.train 0x4 true) ∧
  decode 32 0x400000004 = .ok (.train 0x4 false) ∧
  decode 32 0x600000000 = .ok .init ∧
  decode 32 0x000000000 = .ok .nop

/-! ### The step -/

/-- 20_memory.md section 3 and 45_interface_ops.md section 1 (the spec's own decision D1): a step takes the oldest
command word and is the execution of the command it decodes to. That the pending words are a list of State is the
model's choice (log entry 4). -/
def Obligations.StepRunsTheDecodedCommand : Prop :=
  ∀ (s : State) (w : Nat) (rest : List Nat) (i : Instr), s.port = w :: rest → decode s.pcW w = .ok i →
    step s = exec i { s with port := rest }

/-- The model's own choice (log entries 5 and 7): with no command pending a step changes nothing, and a number that is
no `PC_W + 3`-bit word is refused by name. -/
def Obligations.StepWithoutACommandWord : Prop :=
  (∀ s : State, s.port = [] → step s = .next s) ∧
  (∀ (s : State) (w : Nat) (rest : List Nat), s.port = w :: rest → 2 ^ (s.pcW + 3) ≤ w →
    step s = .refused .wordTooWide)

/-- 20_memory.md section 3 (R56): commands take effect in the order the host issues them, one at a time; each sees every
effect of every earlier one and none of a later one (the words in `rest` play no part). That the issued words are a list
of State is the model's choice (log entry 4, DESIGN CHOICE). -/
def Obligations.CommandsTakeEffectInIssueOrder : Prop :=
  ∀ (s : State) (is : List Instr) (rest : List Nat), (∀ i ∈ is, i.wellFormed s.pcW = true) →
    runSteps is.length { s with port := is.map (encode s.pcW) ++ rest } = execAll is { s with port := rest }

/-- The model's choice (log entry 17): the state the host's `withFetchWord` builds runs exactly the command of the
word placed there, at the `PC_W` of the opcode table. -/
def Obligations.WithFetchWordRunsItsCommand : Prop :=
  ∀ (s : State) (i : Instr), i.wellFormed 32 = true →
    step (s.withFetchWord 40 (encode 32 i)) = exec i { s with pcW := 32 }

/-! ### The commands, variant by variant: result, frame and completion -/

/-- 45_interface_ops.md section 2 (`NOP`, the spec's own decision D15): it completes in every state and changes nothing
but the response. -/
def Obligations.NopChangesNothing : Prop :=
  ∀ s : State, exec .nop s = .next { s with resp := .noValue }

/-- 44_static.md R103: `STATIC.PREDICT` answers `Taken` for every `pc` and writes no state. -/
def Obligations.StaticPredictAnswersTaken : Prop :=
  ∀ (s : State) (pc : Nat), s.status = .ready → s.cfg.variant = 0 → s.vs = .static →
    exec (.predict pc) s = .next { s with resp := .pred true }

/-- 44_static.md R104: `STATIC.TRAIN` writes no state and answers no value. -/
def Obligations.StaticTrainChangesNothing : Prop :=
  ∀ (s : State) (pc : Nat) (o : Dir), s.status = .ready → s.cfg.variant = 0 → s.vs = .static →
    exec (.train pc o) s = .next { s with resp := .noValue }

/-- 41_gshare.md R84, with 40_primitives.md R74 and R80: `GSHARE.PREDICT` answers whether the counter at
`(pc & mask(N)) XOR G` is 2 or more, and writes no state. -/
def Obligations.GsharePredictReadsTheHashedCounter : Prop :=
  ∀ (s : State) (v : GshareState) (pc : Nat), s.status = .ready → s.cfg.variant = 1 → s.vs = .gshare v →
    exec (.predict pc) s =
      .next { s with resp := .pred (decide (2 ≤ (readCtr v.t ((pc &&& (2 ^ s.cfg.n - 1)) ^^^ v.g)).toNat)) }

/-- 41_gshare.md R85, with 40_primitives.md R73 and R76: `GSHARE.TRAIN` moves the hashed counter one step towards the
outcome, saturating, shifts the outcome into `G`, and leaves every other entry and every other field as it was. -/
def Obligations.GshareTrainAdvancesTheHashedCounter : Prop :=
  ∀ (s : State) (v : GshareState) (pc : Nat) (o : Dir), s.status = .ready → s.cfg.variant = 1 → s.vs = .gshare v →
    ∃ v' : GshareState,
      exec (.train pc o) s = .next { s with vs := .gshare v', resp := .noValue } ∧
      v'.g = ((v.g <<< 1) ||| o.toNat) &&& (2 ^ s.cfg.n - 1) ∧
      ∀ j, (readCtr v'.t j).toNat =
        if j = (pc &&& (2 ^ s.cfg.n - 1)) ^^^ v.g then
          (if o then min ((readCtr v.t j).toNat + 1) 3 else (readCtr v.t j).toNat - 1)
        else (readCtr v.t j).toNat

/-- 42_tournament.md R90, with R88: `TOURN.PREDICT` answers the global sub-predictor's prediction where `C[G]` is at
most 1, else the local one's, and writes no state. -/
def Obligations.TournamentPredictFollowsTheChoice : Prop :=
  ∀ (s : State) (v : TournamentState) (pc : Nat), s.status = .ready → s.cfg.variant = 2 → s.vs = .tournament v →
    let d : Dir :=
      if (readChoice v.c v.g).toNat ≤ 1 then decide (2 ≤ (readCtr v.tg v.g).toNat)
      else decide (2 ≤ (readCtr v.tl (readHist v.lh (pc &&& (2 ^ s.cfg.p - 1)))).toNat)
    exec (.predict pc) s = .next { s with resp := .pred d }

/-- 42_tournament.md R91, with R89 and 40_primitives.md R73 and R76: `TOURN.TRAIN` advances `TG[G]` and `TL[lh]`, scores
`C[G]` by the two pre-update predictions, shifts the outcome into `LH[li]` and `G`, every read being of the state
before, and leaves every other entry and every other field as it was. -/
def Obligations.TournamentTrainUpdatesBothSides : Prop :=
  ∀ (s : State) (v : TournamentState) (pc : Nat) (o : Dir), s.status = .ready → s.cfg.variant = 2 →
    s.vs = .tournament v →
    let li := pc &&& (2 ^ s.cfg.p - 1)
    let lh := readHist v.lh li
    let gp := decide (2 ≤ (readCtr v.tg v.g).toNat)
    let lp := decide (2 ≤ (readCtr v.tl lh).toNat)
    ∃ v' : TournamentState,
      exec (.train pc o) s = .next { s with vs := .tournament v', resp := .noValue } ∧
      (∀ j, (readCtr v'.tg j).toNat =
        if j = v.g then (if o then min ((readCtr v.tg j).toNat + 1) 3 else (readCtr v.tg j).toNat - 1)
        else (readCtr v.tg j).toNat) ∧
      (∀ j, (readCtr v'.tl j).toNat =
        if j = lh then (if o then min ((readCtr v.tl j).toNat + 1) 3 else (readCtr v.tl j).toNat - 1)
        else (readCtr v.tl j).toNat) ∧
      (∀ j, (readChoice v'.c j).toNat =
        if j = v.g then
          (if lp = o ∧ gp ≠ o then min ((readChoice v.c j).toNat + 1) 3
           else if gp = o ∧ lp ≠ o then (readChoice v.c j).toNat - 1
           else (readChoice v.c j).toNat)
        else (readChoice v.c j).toNat) ∧
      (∀ j, readHist v'.lh j =
        if j = li then ((lh <<< 1) ||| o.toNat) &&& (2 ^ s.cfg.l - 1) else readHist v.lh j) ∧
      v'.g = ((v.g <<< 1) ||| o.toNat) &&& (2 ^ s.cfg.n - 1)

/-- 43_custom.md R98, with R94, R95 and R96: `CUSTOM.PREDICT` answers the prediction of the first option, by position,
whose counter in the bucket's row equals 3, and `NotTaken` where none does; it writes no state. -/
def Obligations.CustomPredictTakesTheFirstConfidentOption : Prop :=
  ∀ (s : State) (v : CustomState) (pc : Nat), s.status = .ready → s.cfg.variant = 3 → s.vs = .custom v →
    let li := pc &&& (2 ^ s.cfg.p - 1)
    let row := readRow v.s li
    let d : Dir :=
      if row.glob = 3 then decide (2 ≤ (readCtr v.tg v.g).toNat)
      else if row.gsv = 3 then decide (2 ≤ (readCtr v.tgs ((pc ^^^ v.gs) &&& (2 ^ s.cfg.w - 1))).toNat)
      else if row.loc = 3 then decide (2 ≤ (readCtr v.tl (readHist v.lh li)).toNat)
      else false
    exec (.predict pc) s = .next { s with resp := .pred d }

/-- 43_custom.md R99, with R94, R97 and 40_primitives.md R73 and R76: `CUSTOM.TRAIN` advances `TG[G]`, `TGS[gsIdx]` and
`TL[lh]`, scores the row `S[li]` by the three pre-update predictions, shifts the outcome into `LH[li]`, `G` and `GS`,
every read being of the state before, and leaves every other entry and every other field as it was. -/
def Obligations.CustomTrainUpdatesAllThree : Prop :=
  ∀ (s : State) (v : CustomState) (pc : Nat) (o : Dir), s.status = .ready → s.cfg.variant = 3 → s.vs = .custom v →
    let li := pc &&& (2 ^ s.cfg.p - 1)
    let lh := readHist v.lh li
    let gsIdx := (pc ^^^ v.gs) &&& (2 ^ s.cfg.w - 1)
    let row := readRow v.s li
    let m0 := decide (decide (2 ≤ (readCtr v.tg v.g).toNat) = o)
    let m1 := decide (decide (2 ≤ (readCtr v.tgs gsIdx).toNat) = o)
    let m2 := decide (decide (2 ≤ (readCtr v.tl lh).toNat) = o)
    ∃ v' : CustomState,
      exec (.train pc o) s = .next { s with vs := .custom v', resp := .noValue } ∧
      (∀ j, (readCtr v'.tg j).toNat =
        if j = v.g then (if o then min ((readCtr v.tg j).toNat + 1) 3 else (readCtr v.tg j).toNat - 1)
        else (readCtr v.tg j).toNat) ∧
      (∀ j, (readCtr v'.tgs j).toNat =
        if j = gsIdx then (if o then min ((readCtr v.tgs j).toNat + 1) 3 else (readCtr v.tgs j).toNat - 1)
        else (readCtr v.tgs j).toNat) ∧
      (∀ j, (readCtr v'.tl j).toNat =
        if j = lh then (if o then min ((readCtr v.tl j).toNat + 1) 3 else (readCtr v.tl j).toNat - 1)
        else (readCtr v.tl j).toNat) ∧
      (∀ j, readRow v'.s j =
        if j = li then
          (if (m0 = true ∧ row.glob = 3) ∨ (m1 = true ∧ row.gsv = 3) ∨ (m2 = true ∧ row.loc = 3) then
            { glob := if m0 then row.glob else row.glob - 1
              gsv := if m1 then row.gsv else row.gsv - 1
              loc := if m2 then row.loc else row.loc - 1 }
          else
            { glob := if m0 then row.glob + 1 else row.glob
              gsv := if m1 then row.gsv + 1 else row.gsv
              loc := if m2 then row.loc + 1 else row.loc })
        else readRow v.s j) ∧
      (∀ j, readHist v'.lh j =
        if j = li then ((lh <<< 1) ||| o.toNat) &&& (2 ^ s.cfg.l - 1) else readHist v.lh j) ∧
      v'.g = ((v.g <<< 1) ||| o.toNat) &&& (2 ^ s.cfg.n - 1) ∧
      v'.gs = ((v.gs <<< 1) ||| o.toNat) &&& (2 ^ s.cfg.w - 1)

/-! ### `INIT` and the faults -/

/-- 10_state.md section 10 and 45_interface_ops.md section 2 (the spec's own decisions D5, D6, D7, D8, D14): with a legal
configuration `INIT` completes from every state, sets `STATUS` to `READY`, and leaves every element of the selected
variant's state at its documented value and every other field as it was. -/
def Obligations.InitResetsTheVariantState : Prop :=
  ∀ s : State, s.cfg.variant ≤ 3 → 1 ≤ s.cfg.n → 1 ≤ s.cfg.l → 1 ≤ s.cfg.p → 1 ≤ s.cfg.w →
    ∃ vs : VarState,
      exec .init s = .next { s with status := .ready, vs := vs, resp := .noValue } ∧
      (s.cfg.variant = 0 → vs = .static) ∧
      (s.cfg.variant = 1 → ∃ v, vs = .gshare v ∧ v.g = 0 ∧ ∀ i, (readCtr v.t i).toNat = 2) ∧
      (s.cfg.variant = 2 → ∃ v, vs = .tournament v ∧ v.g = 0 ∧ (∀ i, (readCtr v.tg i).toNat = 2) ∧
        (∀ i, readHist v.lh i = 0) ∧ (∀ i, (readCtr v.tl i).toNat = 2) ∧ (∀ i, (readChoice v.c i).toNat = 1)) ∧
      (s.cfg.variant = 3 → ∃ v, vs = .custom v ∧ v.g = 0 ∧ v.gs = 0 ∧ (∀ i, (readCtr v.tg i).toNat = 2) ∧
        (∀ i, (readCtr v.tgs i).toNat = 2) ∧ (∀ i, readHist v.lh i = 0) ∧ (∀ i, (readCtr v.tl i).toNat = 2) ∧
        (∀ i, readRow v.s i = { glob := 3, gsv := 3, loc := 3 }))

/-- 60_exceptions.md sections 1 and 2 (the spec's own decisions D8, D9, D13, D21): with an illegal configuration `INIT`
sets `STATUS` to `CONFIG_ERROR`, discards the variant state and answers `ConfigError` with exactly the failed checks,
each once; nothing else changes. -/
def Obligations.InitRejectsAnIllegalConfiguration : Prop :=
  ∀ s : State, (3 < s.cfg.variant ∨ s.cfg.n = 0 ∨ s.cfg.l = 0 ∨ s.cfg.p = 0 ∨ s.cfg.w = 0) →
    ∃ reasons : List Reason,
      exec .init s =
        .next { s with status := .configError, vs := .absent, resp := .fault (.configError reasons) } ∧
      reasons.Nodup ∧
      (Reason.badVariant ∈ reasons ↔ 3 < s.cfg.variant) ∧
      (Reason.zeroWidth .n ∈ reasons ↔ s.cfg.n = 0) ∧
      (Reason.zeroWidth .l ∈ reasons ↔ s.cfg.l = 0) ∧
      (Reason.zeroWidth .p ∈ reasons ↔ s.cfg.p = 0) ∧
      (Reason.zeroWidth .w ∈ reasons ↔ s.cfg.w = 0)

/-- 60_exceptions.md section 1 (the spec's own decision D12): before the first `INIT`, `PREDICT` and `TRAIN` raise
`NotInitialized` with their `op`, the fault of code 2, and change no state. -/
def Obligations.CommandsBeforeInitRaiseNotInitialized : Prop :=
  ∀ (s : State) (pc : Nat) (o : Dir), s.status = .uninit →
    exec (.predict pc) s = .next { s with resp := .fault (.notInitialized .predict) } ∧
    exec (.train pc o) s = .next { s with resp := .fault (.notInitialized .train) } ∧
    faultCode (.notInitialized .predict) = 2 ∧ faultCode (.notInitialized .train) = 2

/-- 60_exceptions.md section 1 (the spec's own decision D13): after a failed `INIT`, `PREDICT` and `TRAIN` raise
`ConfigError(sticky)`, the fault of code 1, and change no state. -/
def Obligations.CommandsAfterAFailedInitRaiseConfigError : Prop :=
  ∀ (s : State) (pc : Nat) (o : Dir), s.status = .configError →
    exec (.predict pc) s = .next { s with resp := .fault .configErrorSticky } ∧
    exec (.train pc o) s = .next { s with resp := .fault .configErrorSticky } ∧
    faultCode .configErrorSticky = 1

/-- 60_exceptions.md section 2 (the spec's own decision D21): a command that answers a fault has written nothing else,
save that a faulting `INIT` sets `STATUS` to `CONFIG_ERROR` and discards the variant state; `NOP` never faults. -/
def Obligations.AFaultWritesNothingElse : Prop :=
  ∀ (i : Instr) (s t : State) (f : BlockFault), exec i s = .next t → t.resp = .fault f →
    i ≠ .nop ∧
    (i = .init → t = { s with status := .configError, vs := .absent, resp := .fault f }) ∧
    (i ≠ .init → t = { s with resp := .fault f })

/-- 60_exceptions.md sections 1 and 2 (the spec's own decision D13): from a state in which the configuration has been found
illegal, no sequence of commands, `INIT` among them, leaves `CONFIG_ERROR`. -/
def Obligations.ConfigErrorIsPermanent : Prop :=
  ∀ (is : List Instr) (s t : State), s.Inv → s.status = .configError → execAll is s = .next t →
    t.status = .configError ∧ t.vs = .absent ∧ t.cfg = s.cfg

/-- 45_interface_ops.md section 2 and 10_state.md section 3: no sequence of commands returns to `UNINIT`, and the first `INIT`
decides between `READY` and `CONFIG_ERROR` by the configuration alone (an inference of the model from the spec's decisions
D8, D12 and D14). -/
def Obligations.InitDecidesTheStatus : Prop :=
  ∀ s t : State, exec .init s = .next t →
    (t.status = .ready ↔ s.cfg.variant ≤ 3 ∧ 1 ≤ s.cfg.n ∧ 1 ≤ s.cfg.l ∧ 1 ≤ s.cfg.p ∧ 1 ≤ s.cfg.w) ∧
    t.status ≠ .uninit

/-! ### Whole-machine rules -/

/-- 10_state.md section 2 (the spec's own decision D14): no step writes a `CFG` register. Nor does one write `PC_W`: by
00_scope.md section 4 (the spec's own decision D3) it is a parameter the model takes as an argument, and that the model holds
it in a field of State that nothing writes is the model's choice (log entry 3, PRESUMED). -/
def Obligations.NoStepWritesTheConfiguration : Prop :=
  ∀ s t : State, step s = .next t → t.cfg = s.cfg ∧ t.pcW = s.pcW

/-- 10_state.md section 3 (the spec's own decision D12): `STATUS` is written only by `INIT`. -/
def Obligations.OnlyInitWritesStatus : Prop :=
  ∀ (i : Instr) (s t : State), exec i s = .next t → i ≠ .init → t.status = s.status

/-- 45_interface_ops.md section 2 (`PREDICT`): "State written: none, in every variant"; a `PREDICT` changes the response
alone, in every state in which it completes, and it answers a prediction or a fault. -/
def Obligations.PredictWritesNoState : Prop :=
  ∀ (s t : State) (pc : Nat), exec (.predict pc) s = .next t →
    t = { s with resp := t.resp } ∧ ((∃ d, t.resp = .pred d) ∨ ∃ f, t.resp = .fault f)

/-- 45_interface_ops.md section 2 (`TRAIN`): a `TRAIN` writes the variant state and the response alone, and keeps the
variant. -/
def Obligations.TrainWritesOnlyTheVariantState : Prop :=
  ∀ (s t : State) (pc : Nat) (o : Dir), exec (.train pc o) s = .next t →
    t = { s with vs := t.vs, resp := t.resp } ∧
    (match s.vs, t.vs with
      | .absent, .absent => True
      | .static, .static => True
      | .gshare _, .gshare _ => True
      | .tournament _, .tournament _ => True
      | .custom _, .custom _ => True
      | _, _ => False)

/-- 41_gshare.md, the idempotent read, for every variant and status (an inference the spec marks as derived): after any
number of `PREDICT` and `NOP` commands a `PREDICT` does exactly what it would have done before them. -/
def Obligations.RepeatedPredictsAgree : Prop :=
  ∀ (is : List Instr) (s s' : State) (pc : Nat), (∀ i ∈ is, i = .nop ∨ ∃ q, i = .predict q) →
    execAll is s = .next s' → exec (.predict pc) s' = exec (.predict pc) s

/-- 60_exceptions.md section 1: with `STATUS = READY`, no `PREDICT` and no `TRAIN` can fault, in any variant and for any `pc`
and `o`, and `NOP` never faults. The invariant rules out states that no run reaches. -/
def Obligations.ReadyCommandsNeverFault : Prop :=
  ∀ s : State, s.Inv → s.status = .ready →
    (∀ pc, ∃ d, exec (.predict pc) s = .next { s with resp := .pred d }) ∧
    (∀ pc o, ∃ vs, exec (.train pc o) s = .next { s with vs := vs, resp := .noValue }) ∧
    exec .nop s = .next { s with resp := .noValue }

/-- 60_exceptions.md sections 1 and 2: under the invariant every step answers a next state; no command, word or fault of the
block stops the machine (an inference of the model, log entries 6, 7 and 8). -/
def Obligations.EveryStepCompletes : Prop :=
  ∀ s : State, s.Inv → ∃ t, step s = .next t

/-- 70_reset_and_hazards.md section 3 (the spec's own decision D16): the block does not check the call protocol; every
sequence of commands, whether or not it follows the protocol, runs to its end. -/
def Obligations.EveryCommandSequenceCompletes : Prop :=
  ∀ (is : List Instr) (s : State), s.Inv → ∃ t, execAll is s = .next t

/-- 70_reset_and_hazards.md section 3 (the spec's own decision D16): no command reads what an earlier one answered, so a
`TRAIN` needs no preceding `PREDICT`. -/
def Obligations.CommandsIgnoreTheLastResponse : Prop :=
  ∀ (i : Instr) (s : State) (r : Response), exec i { s with resp := r } = exec i s

/-- 45_interface_ops.md section 2 (`PREDICT`, "leaves no trace"): a sequence of commands ends in the same state, but for the
last response, when every `PREDICT` is taken out of it. -/
def Obligations.PredictsLeaveNoTrace : Prop :=
  ∀ (is : List Instr) (s t : State), execAll is s = .next t →
    ∃ r, execAll (is.filter fun i => decide (i.op ≠ .predict)) s = .next { t with resp := r }

/-- 70_reset_and_hazards.md section 3 (R127), as the model reads it (log entry 21): a sequence follows the call protocol
exactly when its `PREDICT` and `TRAIN` commands are those of branches, one after the other, each one `PREDICT` and then one
`TRAIN` at the same `pc`. It is the host's duty and no command reads it; what it gives the machine is
`PredictsSeeEveryEarlierBranch`. -/
def Obligations.TheProtocolIsASequenceOfBranches : Prop :=
  ∀ is : List Instr, followsProtocol none is = true ↔
    ∃ bs : List (Nat × Dir), branchPart is = bs.flatMap branchCommands

/-- The model's own choice (log entry 8): a command stops the machine only as a `PREDICT` or a `TRAIN` in `READY` without
the state of the configured variant, which is outside the invariant, and no command is refused. -/
def Obligations.OnlyAMissingVariantStateStopsACommand : Prop :=
  ∀ (i : Instr) (s : State),
    (∀ r, exec i s ≠ .refused r) ∧
    (∀ r, exec i s = .fault r →
      r = .variantStateAbsent ∧ s.status = .ready ∧ ¬ s.Inv ∧
      ((∃ pc, i = .predict pc) ∨ ∃ pc o, i = .train pc o))

/-- 20_memory.md section 1 (an inference the spec marks as derived): every index a command computes in `READY` is within its
table. -/
def Obligations.TableIndicesAreInRange : Prop :=
  ∀ (s : State) (pc : Nat), s.Inv → s.status = .ready →
    (∀ v, s.vs = .gshare v → gshareIndex s.cfg pc v.g < 2 ^ s.cfg.n) ∧
    (∀ v, s.vs = .tournament v → v.g < 2 ^ s.cfg.n ∧ pcIndex s.cfg pc < 2 ^ s.cfg.p ∧
      readHist v.lh (pcIndex s.cfg pc) < 2 ^ s.cfg.l) ∧
    (∀ v, s.vs = .custom v → v.g < 2 ^ s.cfg.n ∧ gsvarIndex s.cfg pc v.gs < 2 ^ s.cfg.w ∧
      pcIndex s.cfg pc < 2 ^ s.cfg.p ∧ readHist v.lh (pcIndex s.cfg pc) < 2 ^ s.cfg.l)

/-- 20_memory.md section 1 (an inference the spec marks as derived): branches whose `pc` agree in the bits the variant indexes
by share every entry, so a command at one is a command at the other. -/
def Obligations.AliasedBranchesAreOne : Prop :=
  ∀ (s : State) (pc pc' : Nat) (o : Dir),
    (s.cfg.variant = 0 ∨
      (s.cfg.variant = 1 ∧ pc &&& (2 ^ s.cfg.n - 1) = pc' &&& (2 ^ s.cfg.n - 1)) ∨
      (s.cfg.variant = 2 ∧ pc &&& (2 ^ s.cfg.p - 1) = pc' &&& (2 ^ s.cfg.p - 1)) ∨
      (s.cfg.variant = 3 ∧ pc &&& (2 ^ s.cfg.p - 1) = pc' &&& (2 ^ s.cfg.p - 1) ∧
        pc &&& (2 ^ s.cfg.w - 1) = pc' &&& (2 ^ s.cfg.w - 1))) →
    exec (.predict pc) s = exec (.predict pc') s ∧ exec (.train pc o) s = exec (.train pc' o) s

/-- 40_primitives.md section 3 (an inference the spec marks as derived): for a `GS` of `W` bits the index into `TGS` is the
Gshare hash with `W` in place of `N`. -/
def Obligations.GsvarIndexIsTheGshareHash : Prop :=
  ∀ (cfg : Cfg) (pc gs : Nat), gs < 2 ^ cfg.w → gsvarIndex cfg pc gs = (pc &&& (2 ^ cfg.w - 1)) ^^^ gs

/-- 70_reset_and_hazards.md section 1 (an inference the spec marks as derived): the state an `INIT` leaves is a function of
`CFG` alone; whatever two instances with one configuration did before, they are alike after it. -/
def Obligations.InitForgetsEverything : Prop :=
  ∀ s s' : State, s.cfg = s'.cfg →
    ∃ t t', exec .init s = .next t ∧ exec .init s' = .next t' ∧
      t.status = t'.status ∧ t.vs = t'.vs ∧ t.cfg = t'.cfg ∧ t.resp = t'.resp

/-- The model's reading of "reset" (log entries 1, 2 and 3): the reset state is what `INIT` leaves of an instance at
power-on with the same `CFG` and `PC_W`, whatever variant state it powered on with. -/
def Obligations.ResetIsTheInitOfPowerOn : Prop :=
  ∀ vs : VarState, exec .init (State.powerOn State.reset.pcW State.reset.cfg vs) = .next State.reset

/-! ### The invariant -/

/-- Every step keeps the invariant: legal `PC_W`, command words on the port, a `STATUS` that tells the truth, the state of the
configured variant and no other, histories and local histories within their widths, tables in canonical form and within
their sizes, option counters within their storage with one at 3 (10_state.md sections 1 to 8, 43_custom.md section 4). -/
def Obligations.StepKeepsTheInvariant : Prop :=
  ∀ s t : State, s.Inv → step s = .next t → t.Inv

/-- The invariant holds at reset (70_reset_and_hazards.md section 1 and 10_state.md section 10; the values of the reset state
are the model's: log entry 1, DEDUCED, that reset is a successful `INIT`; entry 2, DESIGN CHOICE, the `CFG` it names; entry 3,
PRESUMED, its `PC_W`), and at power-on for every legal `PC_W`, every configuration and every variant state (10_state.md
section 10 and log entry 12, DEDUCED: before `INIT` the variant state is any value). -/
def Obligations.InvariantHoldsAtTheStart : Prop :=
  State.reset.Inv ∧ ∀ (pcW : Nat) (cfg : Cfg) (vs : VarState), 1 ≤ pcW → (State.powerOn pcW cfg vs).Inv

/-- A command word the host issues keeps the invariant. That the host issues commands is 70_reset_and_hazards.md section 5; that
an issued word joins the end of a list of State is the model's choice (log entry 4, DESIGN CHOICE). -/
def Obligations.IssuingAWordKeepsTheInvariant : Prop :=
  ∀ (s : State) (w : Nat), s.Inv → w < 2 ^ (s.pcW + 3) → (s.issue w).Inv

/-! ### Runs from `INIT` -/

/-- 43_custom.md section 4 (an inference the spec marks as derived): from an `INIT` of a Custom instance, under any sequence of
commands, every option counter stays in 0..3 and every row holds one equal to 3. -/
def Obligations.OptionCountersStayBoundedWithOneAtThree : Prop :=
  ∀ (is : List Instr) (s s0 t : State), s.cfg.variant = 3 → exec .init s = .next s0 → s0.status = .ready →
    execAll is s0 = .next t →
    ∃ v, t.vs = .custom v ∧ ∀ r,
      (readRow v.s r).glob ≤ 3 ∧ (readRow v.s r).gsv ≤ 3 ∧ (readRow v.s r).loc ≤ 3 ∧
      ((readRow v.s r).glob = 3 ∨ (readRow v.s r).gsv = 3 ∨ (readRow v.s r).loc = 3)

/-- 43_custom.md section 4 (an inference the spec marks as derived): under the invariant `CUSTOM.PREDICT` never falls back; it
answers the prediction of a confident option, the first one by position. -/
def Obligations.CustomPredictNeverFallsBack : Prop :=
  ∀ (s : State) (v : CustomState) (pc : Nat), s.Inv → s.status = .ready → s.vs = .custom v →
    ∃ k : Fin 3, (readRow v.s (pcIndex s.cfg pc)).get k = 3 ∧
      (∀ j : Fin 3, j < k → (readRow v.s (pcIndex s.cfg pc)).get j ≤ 2) ∧
      exec (.predict pc) s = .next { s with resp := .pred (decide (2 ≤
        (match k with
          | 0 => readCtr v.tg v.g
          | 1 => readCtr v.tgs (gsvarIndex s.cfg pc v.gs)
          | 2 => readCtr v.tl (readHist v.lh (pcIndex s.cfg pc))).toNat)) }

/-- 43_custom.md section 4 (an inference the spec marks as derived): where one option of the bucket's row is at exactly 3 and the
others are not, the prediction is always that option's. -/
def Obligations.ASingleConfidentOptionDecides : Prop :=
  ∀ (s : State) (v : CustomState) (pc : Nat) (k : Fin 3), s.status = .ready → s.cfg.variant = 3 → s.vs = .custom v →
    (∀ j : Fin 3, (readRow v.s (pcIndex s.cfg pc)).get j = 3 ↔ j = k) →
    exec (.predict pc) s = .next { s with resp := .pred (decide (2 ≤
      (match k with
        | 0 => readCtr v.tg v.g
        | 1 => readCtr v.tgs (gsvarIndex s.cfg pc v.gs)
        | 2 => readCtr v.tl (readHist v.lh (pcIndex s.cfg pc))).toNat)) }

/-- 40_primitives.md section 2 and 41_gshare.md (inferences the spec marks as derived, from its decisions D5 and D6 that the
histories start at 0): after `INIT` and any commands but another `INIT`, each global history register holds the most recent
outcomes, newest in bit 0, zeros above the oldest, cut to its width. -/
def Obligations.GlobalHistoriesAreTheRecentOutcomes : Prop :=
  ∀ (is : List Instr) (s s0 t : State), (∀ i ∈ is, i ≠ .init) → exec .init s = .next s0 → execAll is s0 = .next t →
    (∀ v, t.vs = .gshare v → ∀ j,
      v.g.testBit j = (decide (j < s.cfg.n) && (outcomesOf is).reverse.getD j false)) ∧
    (∀ v, t.vs = .tournament v → ∀ j,
      v.g.testBit j = (decide (j < s.cfg.n) && (outcomesOf is).reverse.getD j false)) ∧
    (∀ v, t.vs = .custom v → ∀ j,
      v.g.testBit j = (decide (j < s.cfg.n) && (outcomesOf is).reverse.getD j false) ∧
      v.gs.testBit j = (decide (j < s.cfg.w) && (outcomesOf is).reverse.getD j false))

/-- 10_state.md section 4 and 40_primitives.md section 2 (inferences the spec marks as derived, from its decision D7 and the
Tournament's initial 0): after `INIT` and any commands but another `INIT`, each local history holds the most recent outcomes
trained at its own PC-index. -/
def Obligations.LocalHistoriesAreTheRecentOutcomesThere : Prop :=
  ∀ (is : List Instr) (s s0 t : State), (∀ i ∈ is, i ≠ .init) → exec .init s = .next s0 → execAll is s0 = .next t →
    (∀ v, t.vs = .tournament v → ∀ r j,
      (readHist v.lh r).testBit j = (decide (j < s.cfg.l) && (outcomesAt s.cfg r is).reverse.getD j false)) ∧
    (∀ v, t.vs = .custom v → ∀ r j,
      (readHist v.lh r).testBit j = (decide (j < s.cfg.l) && (outcomesAt s.cfg r is).reverse.getD j false))

/-- 42_tournament.md section 3 (an inference the spec marks as derived): if at every `TRAIN` since `INIT` the two sub-predictors'
pre-update predictions are equal, every choice counter stays at its initial value 1. -/
def Obligations.ChoiceStaysWhileSubPredictorsAgree : Prop :=
  ∀ (is : List Instr) (s s0 t : State), exec .init s = .next s0 → execAll is s0 = .next t →
    (∀ (before after : List Instr) (pc : Nat) (o : Dir) (s1 : State) (v1 : TournamentState),
      is = before ++ .train pc o :: after → execAll before s0 = .next s1 → s1.vs = .tournament v1 →
      decide (2 ≤ (readCtr v1.tg v1.g).toNat) =
        decide (2 ≤ (readCtr v1.tl (readHist v1.lh (pcIndex s1.cfg pc))).toNat)) →
    ∀ v, t.vs = .tournament v → ∀ g, (readChoice v.c g).toNat = 1

/-- 42_tournament.md section 3 (an inference the spec marks as derived), as one step: where every choice counter is 1, and the two
sub-predictors predict alike if the next command is a `TRAIN`, every choice counter is 1 after the step, whatever the command.
The next command is the oldest word of the port (log entry 4). -/
def Obligations.StepKeepsChoiceWhileSubPredictorsAgree : Prop :=
  ∀ s t : State, (∀ v, s.vs = .tournament v → ∀ g, (readChoice v.c g).toNat = 1) →
    (∀ (w : Nat) (rest : List Nat) (pc : Nat) (o : Dir) (v : TournamentState),
      s.port = w :: rest → decode s.pcW w = .ok (.train pc o) → s.vs = .tournament v →
      decide (2 ≤ (readCtr v.tg v.g).toNat) =
        decide (2 ≤ (readCtr v.tl (readHist v.lh (pcIndex s.cfg pc))).toNat)) →
    step s = .next t →
    ∀ v, t.vs = .tournament v → ∀ g, (readChoice v.c g).toNat = 1

/-- 70_reset_and_hazards.md section 3 (R127, "the predictor relies on this ordering"), from the spec's own decisions D5 and D6
that the global histories start at 0 and the protocol as log entry 21 reads it: at every `PREDICT` of a sequence that follows
the protocol after an `INIT`, the branches before it are complete, and each global history holds exactly their outcomes, newest
in bit 0, cut to its width. -/
def Obligations.PredictsSeeEveryEarlierBranch : Prop :=
  ∀ (before after : List Instr) (pc : Nat) (s s0 t : State),
    followsProtocol none (before ++ .predict pc :: after) = true → (∀ i ∈ before, i ≠ .init) →
    exec .init s = .next s0 → execAll before s0 = .next t →
    ∃ bs : List (Nat × Dir), branchPart before = bs.flatMap branchCommands ∧
      (∀ v, t.vs = .gshare v → ∀ j,
        v.g.testBit j = (decide (j < s.cfg.n) && (bs.map (·.2)).reverse.getD j false)) ∧
      (∀ v, t.vs = .tournament v → ∀ j,
        v.g.testBit j = (decide (j < s.cfg.n) && (bs.map (·.2)).reverse.getD j false)) ∧
      (∀ v, t.vs = .custom v → ∀ j,
        v.g.testBit j = (decide (j < s.cfg.n) && (bs.map (·.2)).reverse.getD j false) ∧
        v.gs.testBit j = (decide (j < s.cfg.w) && (bs.map (·.2)).reverse.getD j false))
end

