-- ==== Sys2Proof/Laws/Counters.lean ====
section
/-! SUPPORT. What the counters and arbiters compute (40_primitives.md R73, R74, 42_tournament.md R89,
43_custom.md R95, R97, R100, R101). -/

namespace Sys2Proof.Machine

theorem advance_toNat (c : Ctr) (o : Dir) :
    (advance c o).toNat = if o then min (c.toNat + 1) 3 else c.toNat - 1 := by
  revert c o; decide

/-- The choice update is the counter transition towards the side that alone was right (R89). -/
theorem choiceUpdate_eq_advance (c : Ctr) (gOk lOk : Bool) :
    choiceUpdate c gOk lOk = if gOk = lOk then c else advance c lOk := by
  revert c gOk lOk; decide

theorem trustsLocal_eq (c : Ctr) : trustsLocal c = ctrPredict c := rfl

/-- The selected option holds 3 and no option before it does (R95). -/
theorem selectOption_some {row : Three Nat} {k : Fin 3} (h : selectOption row = some k) :
    row.get k = 3 ∧ ∀ j < k, row.get j ≠ 3 := by
  unfold selectOption at h
  split at h
  · cases h; exact ⟨by assumption, fun j hj => absurd hj (by omega)⟩
  split at h
  · cases h
    refine ⟨by assumption, fun j hj => ?_⟩
    have : j = 0 := by omega
    subst this; assumption
  split at h
  · cases h
    refine ⟨by assumption, fun j hj => ?_⟩
    have : j = 0 ∨ j = 1 := by omega
    rcases this with rfl | rfl <;> assumption
  · cases h

/-- No option is selected exactly when none holds 3 (R95). -/
theorem selectOption_none {row : Three Nat} : selectOption row = none ↔ ∀ k, row.get k ≠ 3 := by
  have : (∀ k : Fin 3, row.get k ≠ 3) ↔ row.glob ≠ 3 ∧ row.gsv ≠ 3 ∧ row.loc ≠ 3 := by
    simp [Fin.forall_fin_succ, Three.get]
  rw [this]; unfold selectOption
  split <;> [simp [*]; split <;> [simp [*]; split <;> simp [*]]]

theorem rowOk_iff (r : Three Nat) :
    rowOk r = true ↔ (r.glob ≤ 3 ∧ r.gsv ≤ 3 ∧ r.loc ≤ 3) ∧ (r.glob = 3 ∨ r.gsv = 3 ∨ r.loc = 3) := by
  simp only [rowOk, Bool.and_eq_true, Bool.or_eq_true, decide_eq_true_eq, beq_iff_eq]
  have : 2 ^ Config.sw = 4 := rfl
  omega

/-- Some option both matched and held 3. -/
theorem confidentRight_iff (row : Three Nat) (m : Three Bool) :
    confidentRight row m = true ↔
      (m.glob = true ∧ row.glob = 3) ∨ (m.gsv = true ∧ row.gsv = 3) ∨ (m.loc = true ∧ row.loc = 3) := by
  simp [confidentRight, or_assoc]

/-- The score update keeps every counter within its storage and some counter at 3 (R100, R101). -/
theorem scoreUpdate_rowOk {row : Three Nat} (m : Three Bool) (h : rowOk row = true) :
    rowOk (scoreUpdate row m) = true := by
  rw [rowOk_iff] at h ⊢
  obtain ⟨a, b, c⟩ := row
  obtain ⟨ma, mb, mc⟩ := m
  have hc := confidentRight_iff ⟨a, b, c⟩ ⟨ma, mb, mc⟩
  simp only [scoreUpdate, scoreOne] at h hc ⊢
  cases hs : confidentRight ⟨a, b, c⟩ ⟨ma, mb, mc⟩ <;> rw [hs] at hc <;> cases ma <;> cases mb <;> cases mc <;>
    simp at hc ⊢ <;> omega

theorem rowInit_ok : rowOk rowInit = true := by decide

end Sys2Proof.Machine
end

