-- ==== Sys2Proof/Laws/Encoding.lean ====
section
/-! SUPPORT. What the fields of a packed word are (30_encoding.md R61). -/

namespace Sys2Proof

theorem opBits_lt (op : Op) : opBits op < 4 := by cases op <;> decide

theorem packWord_lt {pcW : Nat} (op : Op) (o : Dir) {pc : Nat} (h : pc < 2 ^ pcW) :
    packWord pcW op o pc < 2 ^ cmdWidth pcW := by
  have h1 := opBits_lt op
  have h2 : o.toNat ≤ 1 := by cases o <;> decide
  have h3 : (opBits op * 2 + o.toNat) * 2 ^ pcW ≤ 7 * 2 ^ pcW := Nat.mul_le_mul_right _ (by omega)
  have h4 : 2 ^ cmdWidth pcW = 8 * 2 ^ pcW := by rw [cmdWidth, pow_add]; ring
  rw [packWord, h4]; omega

theorem pcField_packWord {pcW : Nat} (op : Op) (o : Dir) {pc : Nat} (h : pc < 2 ^ pcW) :
    pcField pcW (packWord pcW op o pc) = pc := by
  rw [pcField, packWord, Nat.add_comm, Nat.add_mul_mod_self_right, Nat.mod_eq_of_lt h]

/-- A bit of a packed word at or above `PC_W` is a bit of `op` and `o`. -/
theorem packWord_testBit {pcW : Nat} (op : Op) (o : Dir) {pc : Nat} (h : pc < 2 ^ pcW) (j : Nat) :
    (packWord pcW op o pc).testBit (pcW + j) = (opBits op * 2 + o.toNat).testBit j := by
  have e : packWord pcW op o pc = 2 ^ pcW * (opBits op * 2 + o.toNat) + pc := by rw [packWord, Nat.mul_comm]
  rw [e, Nat.testBit_two_pow_mul_add _ h]
  simp

theorem outcomeField_packWord {pcW : Nat} (op : Op) (o : Dir) {pc : Nat} (h : pc < 2 ^ pcW) :
    outcomeField pcW (packWord pcW op o pc) = o := by
  have := packWord_testBit op o h 0
  rw [Nat.add_zero] at this
  rw [outcomeField, this]
  cases op <;> cases o <;> decide

theorem opField_packWord {pcW : Nat} (op : Op) (o : Dir) {pc : Nat} (h : pc < 2 ^ pcW) :
    opField pcW (packWord pcW op o pc) = op := by
  rw [opField, packWord_testBit op o h 2, packWord_testBit op o h 1]
  cases op <;> cases o <;> decide

end Sys2Proof
end

