-- ==== Sys2Proof/Laws/State.lean ====
section
/-! SUPPORT. One lemma per field of State per update of it, so that no proof unfolds a record update. -/

namespace Sys2Proof.Machine

@[simp] theorem State.answer_pcW (s : State) (r : Response) : (s.answer r).pcW = s.pcW := rfl
@[simp] theorem State.answer_port (s : State) (r : Response) : (s.answer r).port = s.port := rfl
@[simp] theorem State.answer_cfg (s : State) (r : Response) : (s.answer r).cfg = s.cfg := rfl
@[simp] theorem State.answer_status (s : State) (r : Response) : (s.answer r).status = s.status := rfl
@[simp] theorem State.answer_vs (s : State) (r : Response) : (s.answer r).vs = s.vs := rfl
@[simp] theorem State.answer_resp (s : State) (r : Response) : (s.answer r).resp = r := rfl

@[simp] theorem State.withVs_pcW (s : State) (v : VarState) : (s.withVs v).pcW = s.pcW := rfl
@[simp] theorem State.withVs_port (s : State) (v : VarState) : (s.withVs v).port = s.port := rfl
@[simp] theorem State.withVs_cfg (s : State) (v : VarState) : (s.withVs v).cfg = s.cfg := rfl
@[simp] theorem State.withVs_status (s : State) (v : VarState) : (s.withVs v).status = s.status := rfl
@[simp] theorem State.withVs_vs (s : State) (v : VarState) : (s.withVs v).vs = v := rfl
@[simp] theorem State.withVs_resp (s : State) (v : VarState) : (s.withVs v).resp = s.resp := rfl

@[simp] theorem State.withStatus_pcW (s : State) (st : Status) : (s.withStatus st).pcW = s.pcW := rfl
@[simp] theorem State.withStatus_port (s : State) (st : Status) : (s.withStatus st).port = s.port := rfl
@[simp] theorem State.withStatus_cfg (s : State) (st : Status) : (s.withStatus st).cfg = s.cfg := rfl
@[simp] theorem State.withStatus_status (s : State) (st : Status) : (s.withStatus st).status = st := rfl
@[simp] theorem State.withStatus_vs (s : State) (st : Status) : (s.withStatus st).vs = s.vs := rfl
@[simp] theorem State.withStatus_resp (s : State) (st : Status) : (s.withStatus st).resp = s.resp := rfl

@[simp] theorem State.withPort_pcW (s : State) (p : List Nat) : (s.withPort p).pcW = s.pcW := rfl
@[simp] theorem State.withPort_port (s : State) (p : List Nat) : (s.withPort p).port = p := rfl
@[simp] theorem State.withPort_cfg (s : State) (p : List Nat) : (s.withPort p).cfg = s.cfg := rfl
@[simp] theorem State.withPort_status (s : State) (p : List Nat) : (s.withPort p).status = s.status := rfl
@[simp] theorem State.withPort_vs (s : State) (p : List Nat) : (s.withPort p).vs = s.vs := rfl
@[simp] theorem State.withPort_resp (s : State) (p : List Nat) : (s.withPort p).resp = s.resp := rfl

@[simp] theorem State.answer_answer (s : State) (r r' : Response) : (s.answer r).answer r' = s.answer r' := rfl
@[simp] theorem State.withVs_withVs (s : State) (v v' : VarState) : (s.withVs v).withVs v' = s.withVs v' := rfl
@[simp] theorem State.withStatus_withStatus (s : State) (st st' : Status) : (s.withStatus st).withStatus st' = s.withStatus st' := rfl
@[simp] theorem State.withPort_withPort (s : State) (p p' : List Nat) : (s.withPort p).withPort p' = s.withPort p' := rfl

/-! A change of the port commutes with what a command does to the state. -/

theorem State.withPort_answer (s : State) (p : List Nat) (r : Response) :
    (s.withPort p).answer r = (s.answer r).withPort p := rfl
theorem State.withPort_withVs (s : State) (p : List Nat) (v : VarState) :
    (s.withPort p).withVs v = (s.withVs v).withPort p := rfl
theorem State.withPort_withStatus (s : State) (p : List Nat) (st : Status) :
    (s.withPort p).withStatus st = (s.withStatus st).withPort p := rfl

@[simp] theorem State.withPort_self (s : State) : s.withPort s.port = s := rfl
@[simp] theorem State.answer_self (s : State) : s.answer s.resp = s := rfl

/-- A fault changes the response alone (60_exceptions.md R118). -/
theorem raiseFault_eq (f : BlockFault) (s : State) : raiseFault f s = s.answer (.fault f) := rfl

/-- Everything a successful `INIT` does. -/
theorem initSucceed_eq (var : Variant) (s : State) :
    initSucceed var s = { s with status := .ready, vs := initVarState var, resp := .noValue } := rfl

/-- Everything a failing `INIT` does. -/
theorem initFail_eq (reasons : List Reason) (s : State) :
    initFail reasons s = { s with status := .configError, vs := .absent, resp := .fault (.configError reasons) } := rfl

/-- Two states that agree in every field are equal. -/
theorem State.ext_fields {s t : State} (h1 : s.pcW = t.pcW) (h2 : s.port = t.port) (h3 : s.cfg = t.cfg)
    (h4 : s.status = t.status) (h5 : s.vs = t.vs) (h6 : s.resp = t.resp) : s = t := by
  cases s; cases t; simp_all

end Sys2Proof.Machine
end

