-- ==== Sys2Proof/Laws/Operands.lean ====
section
/-! SUPPORT. What the masks, the history shift and the index functions compute, as arithmetic
(40_primitives.md R76 to R81). -/

namespace Sys2Proof.Machine

theorem and_mask (x k : Nat) : x &&& mask k = x % 2 ^ k := Nat.and_two_pow_sub_one_eq_mod x k

theorem and_mask_lt (x k : Nat) : x &&& mask k < 2 ^ k := by
  rw [and_mask]; exact Nat.mod_lt _ (Nat.two_pow_pos k)

theorem pcIndex_eq (cfg : Cfg) (pc : Nat) : pcIndex cfg pc = pc % 2 ^ cfg.p := and_mask _ _

theorem pcIndex_lt (cfg : Cfg) (pc : Nat) : pcIndex cfg pc < 2 ^ cfg.p := and_mask_lt _ _

theorem gshareIndex_eq (cfg : Cfg) (pc : Nat) (g : Nat) : gshareIndex cfg pc g = (pc % 2 ^ cfg.n) ^^^ g := by
  rw [gshareIndex, and_mask]

theorem gshareIndex_lt {cfg : Cfg} {pc : Nat} {g : Nat} (h : g < 2 ^ cfg.n) : gshareIndex cfg pc g < 2 ^ cfg.n :=
  Nat.xor_lt_two_pow (and_mask_lt _ _) h

theorem gsvarIndex_eq (cfg : Cfg) (pc : Nat) (gs : Nat) : gsvarIndex cfg pc gs = (pc ^^^ gs) % 2 ^ cfg.w :=
  and_mask _ _

theorem gsvarIndex_lt (cfg : Cfg) (pc : Nat) (gs : Nat) : gsvarIndex cfg pc gs < 2 ^ cfg.w := and_mask_lt _ _

theorem shiftHist_lt (h : Nat) (o : Dir) (k : Nat) : shiftHist h o k < 2 ^ k := and_mask_lt _ _

/-- Bit 0 of a shifted history is the outcome; every other kept bit is the one below it before. -/
theorem shiftHist_testBit (h : Nat) (o : Dir) (k j : Nat) :
    (shiftHist h o k).testBit j = (decide (j < k) && (if j = 0 then o else h.testBit (j - 1))) := by
  rw [shiftHist, and_mask, Nat.testBit_mod_two_pow, Nat.testBit_or, Nat.testBit_shiftLeft]
  cases j with
  | zero => cases o <;> simp
  | succ j =>
    have : Nat.testBit 1 (j + 1) = false := by simp [Nat.testBit_add]
    cases o <;> simp [this]

/-- The shift as arithmetic. -/
theorem shiftHist_eq (h : Nat) (o : Dir) (k : Nat) : shiftHist h o k = (2 * h + o.toNat) % 2 ^ k := by
  have e : (h <<< 1) ||| o.toNat = 2 * h + o.toNat := by
    have hlt : o.toNat < 2 ^ 1 := by cases o <;> decide
    rw [← Nat.shiftLeft_add_eq_or_of_lt hlt, Nat.shiftLeft_eq]; ring
  rw [shiftHist, and_mask, e]

end Sys2Proof.Machine
end

