-- ==== Sys2Proof/Laws/Tables.lean ====
section
/-! SUPPORT. What the table operations do: a write is read back, leaves every other entry alone
(20_memory.md R46, R47) and keeps the canonical form, and canonical tables that read alike are equal. -/

namespace Sys2Proof.Machine

variable {α : Type}

theorem tabRead_tabErase_same (d : α) (t : Table α) (i : Nat) : tabRead d (tabErase t i) i = d := by
  induction t with
  | nil => rfl
  | cons e rest ih =>
    obtain ⟨k, u⟩ := e
    by_cases h : k = i <;> simp [tabErase, tabRead, h, ih]

theorem tabRead_tabErase_ne (d : α) (t : Table α) {i j : Nat} (h : j ≠ i) :
    tabRead d (tabErase t i) j = tabRead d t j := by
  induction t with
  | nil => rfl
  | cons e rest ih =>
    obtain ⟨k, u⟩ := e
    by_cases hk : k = i
    · have : k ≠ j := fun e => h (e.symm.trans hk)
      simp [tabErase, tabRead, hk, ih, h.symm]
    · simp [tabErase, tabRead, hk, ih]

theorem tabRead_tabInsert_ne (d : α) (t : Table α) (v : α) {i j : Nat} (h : j ≠ i) :
    tabRead d (tabInsert t i v) j = tabRead d t j := by
  induction t with
  | nil => simp [tabInsert, tabRead, h.symm]
  | cons e rest ih =>
    obtain ⟨k, u⟩ := e
    by_cases hk : i < k <;> simp [tabInsert, tabRead, hk, h.symm, ih]

theorem tabRead_tabInsert_same (d : α) (t : Table α) (i : Nat) (v : α) (h : ∀ e ∈ t, e.1 ≠ i) :
    tabRead d (tabInsert t i v) i = v := by
  induction t with
  | nil => simp [tabInsert, tabRead]
  | cons e rest ih =>
    obtain ⟨k, u⟩ := e
    have hk : k ≠ i := h (k, u) (by simp)
    have := ih fun e he => h e (by simp [he])
    by_cases hlt : i < k <;> simp [tabInsert, tabRead, hlt, hk, this]

theorem mem_tabErase {t : Table α} {i : Nat} {e : Nat × α} : e ∈ tabErase t i ↔ e ∈ t ∧ e.1 ≠ i := by
  induction t with
  | nil => simp [tabErase]
  | cons x rest ih =>
    obtain ⟨k, u⟩ := x
    by_cases hk : k = i
    · simp only [tabErase, hk, if_true, ih, List.mem_cons]
      constructor
      · rintro ⟨h1, h2⟩; exact ⟨.inr h1, h2⟩
      · rintro ⟨rfl | h1, h2⟩
        · exact absurd rfl h2
        · exact ⟨h1, h2⟩
    · simp only [tabErase, hk, if_false, List.mem_cons, ih]
      constructor
      · rintro (rfl | ⟨h1, h2⟩)
        · exact ⟨.inl rfl, hk⟩
        · exact ⟨.inr h1, h2⟩
      · rintro ⟨rfl | h1, h2⟩
        · exact .inl rfl
        · exact .inr ⟨h1, h2⟩

theorem mem_tabInsert {t : Table α} {i : Nat} {v : α} {e : Nat × α} :
    e ∈ tabInsert t i v ↔ e = (i, v) ∨ e ∈ t := by
  induction t with
  | nil => simp [tabInsert]
  | cons x rest ih =>
    obtain ⟨k, u⟩ := x
    by_cases hk : i < k
    · simp [tabInsert, hk]
    · simp only [tabInsert, hk, if_false, List.mem_cons, ih]
      tauto

/-- A write is read back, and every other entry reads as before. -/
theorem tabRead_tabWrite [DecidableEq α] (d : α) (t : Table α) (i j : Nat) (v : α) :
    tabRead d (tabWrite d t i v) j = if j = i then v else tabRead d t j := by
  by_cases hv : v = d
  · by_cases hj : j = i
    · subst hj; simp [tabWrite, hv, tabRead_tabErase_same]
    · simp [tabWrite, hv, hj, tabRead_tabErase_ne d t hj]
  · by_cases hj : j = i
    · subst hj
      simp only [tabWrite, hv, if_false, if_true]
      exact tabRead_tabInsert_same d _ _ _ fun e he => (mem_tabErase.mp he).2
    · simp [tabWrite, hv, hj, tabRead_tabInsert_ne d _ v hj, tabRead_tabErase_ne d t hj]

theorem tabErase_pairwise {t : Table α} (i : Nat) (h : t.Pairwise (fun a b => a.1 < b.1)) :
    (tabErase t i).Pairwise (fun a b => a.1 < b.1) := by
  induction t with
  | nil => simp [tabErase]
  | cons x rest ih =>
    obtain ⟨k, u⟩ := x
    rw [List.pairwise_cons] at h
    by_cases hk : k = i
    · simp only [tabErase, hk, if_true]; exact ih h.2
    · simp only [tabErase, hk, if_false, List.pairwise_cons]
      exact ⟨fun e he => h.1 e (mem_tabErase.mp he).1, ih h.2⟩

theorem tabInsert_pairwise {t : Table α} (i : Nat) (v : α) (h : t.Pairwise (fun a b => a.1 < b.1))
    (hi : ∀ e ∈ t, e.1 ≠ i) : (tabInsert t i v).Pairwise (fun a b => a.1 < b.1) := by
  induction t with
  | nil => simp [tabInsert]
  | cons x rest ih =>
    obtain ⟨k, u⟩ := x
    rw [List.pairwise_cons] at h
    have hk : k ≠ i := hi (k, u) (by simp)
    by_cases hlt : i < k
    · simp only [tabInsert, hlt, if_true, List.pairwise_cons]
      refine ⟨fun e he => ?_, h⟩
      rcases List.mem_cons.mp he with rfl | he
      · exact hlt
      · exact lt_trans hlt (h.1 e he)
    · simp only [tabInsert, hlt, if_false, List.pairwise_cons]
      refine ⟨fun e he => ?_, ih h.2 fun e he => hi e (by simp [he])⟩
      rcases mem_tabInsert.mp he with rfl | he
      · change k < i; omega
      · exact h.1 e he

/-- Every write within the table keeps its canonical form. -/
theorem tabWrite_wf [DecidableEq α] {d : α} {ok : α → Bool} {size : Nat} {t : Table α} {i : Nat} {v : α}
    (h : tabWf d ok size t) (hi : i < size) (hv : ok v = true) : tabWf d ok size (tabWrite d t i v) := by
  have hp := tabErase_pairwise i h.1
  by_cases hvd : v = d
  · simp only [tabWrite, hvd, if_true]
    exact ⟨hp, fun e he => h.2 e (mem_tabErase.mp he).1⟩
  · simp only [tabWrite, hvd, if_false]
    refine ⟨tabInsert_pairwise i v hp fun e he => (mem_tabErase.mp he).2, fun e he => ?_⟩
    rcases mem_tabInsert.mp he with rfl | he
    · exact ⟨hi, hvd, hv⟩
    · exact h.2 e (mem_tabErase.mp he).1

/-- The table as `INIT` leaves it is in canonical form. -/
theorem tabWf_nil [DecidableEq α] (d : α) (ok : α → Bool) (size : Nat) : tabWf d ok size [] := by simp [tabWf]

/-- An entry reads as `d` or as a listed entry. -/
theorem tabRead_cases (d : α) (t : Table α) (i : Nat) : tabRead d t i = d ∨ (i, tabRead d t i) ∈ t := by
  induction t with
  | nil => exact .inl rfl
  | cons x rest ih =>
    obtain ⟨k, u⟩ := x
    by_cases hk : k = i
    · right; simp [tabRead, hk]
    · simp only [tabRead, hk, if_false]
      exact ih.imp id fun h => List.mem_cons_of_mem _ h

/-- Every entry of a table in canonical form meets `ok`, if the initial entry does. -/
theorem tabRead_ok [DecidableEq α] {d : α} {ok : α → Bool} {size : Nat} {t : Table α} (h : tabWf d ok size t)
    (hd : ok d = true) (i : Nat) : ok (tabRead d t i) = true := by
  rcases tabRead_cases d t i with e | m
  · rw [e]; exact hd
  · exact (h.2 _ m).2.2

/-- An index below every listed one reads as `d`. -/
theorem tabRead_of_lt (d : α) {t : Table α} {i : Nat} (h : ∀ e ∈ t, i < e.1) : tabRead d t i = d := by
  rcases tabRead_cases d t i with e | m
  · exact e
  · exact absurd (h _ m) (lt_irrefl _)

/-- Tables in canonical form that read alike are equal. -/
theorem tabWf_ext [DecidableEq α] {d : α} {ok : α → Bool} {size : Nat} {t u : Table α} (ht : tabWf d ok size t)
    (hu : tabWf d ok size u) (h : ∀ i, tabRead d t i = tabRead d u i) : t = u := by
  induction t generalizing u with
  | nil =>
    cases u with
    | nil => rfl
    | cons y us =>
      obtain ⟨k, v⟩ := y
      have := h k
      simp only [tabRead, if_true] at this
      exact absurd this.symm (hu.2 (k, v) (by simp)).2.1
  | cons x ts ih =>
    obtain ⟨k, v⟩ := x
    have htp := List.pairwise_cons.mp ht.1
    have hk := h k
    simp only [tabRead, if_true] at hk
    have hvd : v ≠ d := (ht.2 (k, v) (by simp)).2.1
    cases u with
    | nil => simp only [tabRead] at hk; exact absurd hk hvd
    | cons y us =>
      obtain ⟨k', v'⟩ := y
      have hup := List.pairwise_cons.mp hu.1
      have hv'd : v' ≠ d := (hu.2 (k', v') (by simp)).2.1
      have hkk : k' = k := by
        rcases lt_trichotomy k k' with hlt | e | hlt
        · rw [tabRead_of_lt d (t := (k', v') :: us)] at hk
          · exact absurd hk hvd
          · intro e he
            rcases List.mem_cons.mp he with rfl | he
            · exact hlt
            · exact lt_trans hlt (hup.1 e he)
        · exact e.symm
        · have hk' := h k'
          rw [tabRead_of_lt d (t := (k, v) :: ts)] at hk'
          · simp only [tabRead, if_true] at hk'; exact absurd hk'.symm hv'd
          · intro e he
            rcases List.mem_cons.mp he with rfl | he
            · exact hlt
            · exact lt_trans hlt (htp.1 e he)
      subst hkk
      have hvv : v = v' := by simpa [tabRead] using hk
      subst hvv
      congr 1
      refine ih ⟨htp.2, fun e he => ht.2 e (by simp [he])⟩ ⟨hup.2, fun e he => hu.2 e (by simp [he])⟩ fun i => ?_
      by_cases hi : k' = i
      · subst hi
        rw [tabRead_of_lt d fun e he => htp.1 e he, tabRead_of_lt d fun e he => hup.1 e he]
      · simpa [tabRead, hi] using h i

/-! The same, per kind of table. -/

theorem readCtr_writeCtr (t : Table Ctr) (i j : Nat) (v : Ctr) :
    readCtr (writeCtr t i v) j = if j = i then v else readCtr t j := tabRead_tabWrite _ _ _ _ _

theorem readChoice_writeChoice (t : Table Ctr) (i j : Nat) (v : Ctr) :
    readChoice (writeChoice t i v) j = if j = i then v else readChoice t j := tabRead_tabWrite _ _ _ _ _

theorem readHist_writeHist (t : Table Nat) (i j : Nat) (v : Nat) :
    readHist (writeHist t i v) j = if j = i then v else readHist t j := tabRead_tabWrite _ _ _ _ _

theorem readRow_writeRow (t : Table (Three Nat)) (i j : Nat) (v : Three Nat) :
    readRow (writeRow t i v) j = if j = i then v else readRow t j := tabRead_tabWrite _ _ _ _ _

@[simp] theorem readCtr_nil (i : Nat) : readCtr [] i = weaklyTaken := rfl
@[simp] theorem readChoice_nil (i : Nat) : readChoice [] i = choiceInit := rfl
@[simp] theorem readHist_nil (i : Nat) : readHist [] i = histInit := rfl
@[simp] theorem readRow_nil (i : Nat) : readRow [] i = rowInit := rfl

end Sys2Proof.Machine
end

