-- ==== Sys2Proof/Laws/Variants.lean ====
section
/-! SUPPORT. Each variant's training keeps its state of the configured sizes, and `INIT` leaves it so. -/

namespace Sys2Proof.Machine

theorem histRead_lt {p l : Nat} {t : Table Nat} (h : histTabWf p l t) (i : Nat) : readHist t i < 2 ^ l := by
  have := tabRead_ok h (by simp [histInit]) i
  exact of_decide_eq_true this

theorem rowRead_ok {p : Nat} {t : Table (Three Nat)} (h : rowTabWf p t) (i : Nat) : rowOk (readRow t i) = true :=
  tabRead_ok h rowInit_ok i

theorem writeCtr_wf {k i : Nat} {t : Table Ctr} (v : Ctr) (h : ctrTabWf k t) (hi : i < 2 ^ k) :
    ctrTabWf k (writeCtr t i v) := tabWrite_wf h hi rfl

theorem writeChoice_wf {k i : Nat} {t : Table Ctr} (v : Ctr) (h : choiceTabWf k t) (hi : i < 2 ^ k) :
    choiceTabWf k (writeChoice t i v) := tabWrite_wf h hi rfl

theorem writeHist_wf {p l i : Nat} {t : Table Nat} {v : Nat} (h : histTabWf p l t) (hi : i < 2 ^ p)
    (hv : v < 2 ^ l) : histTabWf p l (writeHist t i v) := tabWrite_wf h hi (decide_eq_true hv)

theorem writeRow_wf {p i : Nat} {t : Table (Three Nat)} {v : Three Nat} (h : rowTabWf p t) (hi : i < 2 ^ p)
    (hv : rowOk v = true) : rowTabWf p (writeRow t i v) := tabWrite_wf h hi hv

theorem gshareTrain_ok {cfg : Cfg} {v : GshareState} (h : GshareOk cfg v) (pc : Nat) (o : Dir) :
    GshareOk cfg (gshareTrain cfg v pc o) where
  g := shiftHist_lt _ _ _
  t := writeCtr_wf _ h.t (gshareIndex_lt h.g)

theorem tournTrain_ok {cfg : Cfg} {v : TournamentState} (h : TournamentOk cfg v) (pc : Nat) (o : Dir) :
    TournamentOk cfg (tournTrain cfg v pc o) where
  g := shiftHist_lt _ _ _
  tg := writeCtr_wf _ h.tg h.g
  lh := writeHist_wf h.lh (pcIndex_lt _ _) (shiftHist_lt _ _ _)
  tl := writeCtr_wf _ h.tl (histRead_lt h.lh _)
  c := writeChoice_wf _ h.c h.g

theorem customTrain_ok {cfg : Cfg} {v : CustomState} (h : CustomOk cfg v) (pc : Nat) (o : Dir) :
    CustomOk cfg (customTrain cfg v pc o) where
  g := shiftHist_lt _ _ _
  gs := shiftHist_lt _ _ _
  tg := writeCtr_wf _ h.tg h.g
  tgs := writeCtr_wf _ h.tgs (gsvarIndex_lt _ _ _)
  lh := writeHist_wf h.lh (pcIndex_lt _ _) (shiftHist_lt _ _ _)
  tl := writeCtr_wf _ h.tl (histRead_lt h.lh _)
  s := writeRow_wf h.s (pcIndex_lt _ _) (scoreUpdate_rowOk _ (rowRead_ok h.s _))

theorem initVarState_ok {cfg : Cfg} {var : Variant} (h : variantOfTag cfg.variant = some var) :
    varStateOk cfg (initVarState var) := by
  cases var <;> simp only [varStateOk, h, initVarState]
  · exact ⟨Nat.two_pow_pos _, tabWf_nil _ _ _⟩
  · exact ⟨Nat.two_pow_pos _, tabWf_nil _ _ _, tabWf_nil _ _ _, tabWf_nil _ _ _, tabWf_nil _ _ _⟩
  · exact ⟨Nat.two_pow_pos _, Nat.two_pow_pos _, tabWf_nil _ _ _, tabWf_nil _ _ _, tabWf_nil _ _ _,
      tabWf_nil _ _ _, tabWf_nil _ _ _⟩

/-- A variant state of the configured sizes is that of the configured variant. -/
theorem varStateOk_cases {cfg : Cfg} {vs : VarState} (h : varStateOk cfg vs) :
    (variantOfTag cfg.variant = some .static ∧ vs = .static) ∨
    (∃ v, variantOfTag cfg.variant = some .gshare ∧ vs = .gshare v ∧ GshareOk cfg v) ∨
    (∃ v, variantOfTag cfg.variant = some .tournament ∧ vs = .tournament v ∧ TournamentOk cfg v) ∨
    (∃ v, variantOfTag cfg.variant = some .custom ∧ vs = .custom v ∧ CustomOk cfg v) := by
  unfold varStateOk at h
  split at h
  · exact .inl ⟨by assumption, rfl⟩
  · exact .inr (.inl ⟨_, by assumption, rfl, h⟩)
  · exact .inr (.inr (.inl ⟨_, by assumption, rfl, h⟩))
  · exact .inr (.inr (.inr ⟨_, by assumption, rfl, h⟩))
  · exact h.elim

end Sys2Proof.Machine
end

