-- ==== Sys2Proof/Laws/Exec.lean ====
section
/-! SUPPORT. Everything a command can do, one inversion lemma per command (45_interface_ops.md R105 to R109), and
what the dispatch to a variant answers. -/

namespace Sys2Proof.Machine

/-! ### The tag and the configuration check -/

theorem variantOfTag_isSome (tag : Nat) : (variantOfTag tag).isSome = true ↔ tag ≤ 3 := by
  unfold variantOfTag
  split <;> simp_all
  omega

theorem checkVariant_nil (cfg : Cfg) : checkVariant cfg = [] ↔ ∃ var, variantOfTag cfg.variant = some var := by
  unfold checkVariant
  cases variantOfTag cfg.variant <;> simp

theorem checkWidth_nil (cfg : Cfg) (k : Width) : checkWidth cfg k = [] ↔ widthOf cfg k ≠ 0 := by
  unfold checkWidth
  split <;> simp_all

/-- A configuration is legal when its tag names a variant and no width is 0 (60_exceptions.md R113). -/
theorem configCheck_nil (cfg : Cfg) : configCheck cfg = [] ↔
    (∃ var, variantOfTag cfg.variant = some var) ∧ cfg.n ≠ 0 ∧ cfg.l ≠ 0 ∧ cfg.p ≠ 0 ∧ cfg.w ≠ 0 := by
  simp [configCheck, checkVariant_nil, checkWidth_nil, widthOf]

/-! ### The dispatch to a variant -/

variable {cfg : Cfg} (pc : Nat) (o : Dir)

theorem predictOf_static (h : variantOfTag cfg.variant = some .static) :
    predictOf cfg .static pc = some true := by simp [predictOf, h, staticPredict]

theorem predictOf_gshare (h : variantOfTag cfg.variant = some .gshare) (v : GshareState) :
    predictOf cfg (.gshare v) pc = some (gsharePredict cfg v pc) := by simp [predictOf, h]

theorem predictOf_tournament (h : variantOfTag cfg.variant = some .tournament) (v : TournamentState) :
    predictOf cfg (.tournament v) pc = some (tournPredict cfg v pc) := by simp [predictOf, h]

theorem predictOf_custom (h : variantOfTag cfg.variant = some .custom) (v : CustomState) :
    predictOf cfg (.custom v) pc = some (customPredict cfg v pc) := by simp [predictOf, h]

theorem trainOf_static (h : variantOfTag cfg.variant = some .static) :
    trainOf cfg .static pc o = some .static := by simp [trainOf, h, staticTrain]

theorem trainOf_gshare (h : variantOfTag cfg.variant = some .gshare) (v : GshareState) :
    trainOf cfg (.gshare v) pc o = some (.gshare (gshareTrain cfg v pc o)) := by simp [trainOf, h]

theorem trainOf_tournament (h : variantOfTag cfg.variant = some .tournament) (v : TournamentState) :
    trainOf cfg (.tournament v) pc o = some (.tournament (tournTrain cfg v pc o)) := by simp [trainOf, h]

theorem trainOf_custom (h : variantOfTag cfg.variant = some .custom) (v : CustomState) :
    trainOf cfg (.custom v) pc o = some (.custom (customTrain cfg v pc o)) := by simp [trainOf, h]

/-- Training a variant state of the configured sizes leaves one. -/
theorem trainOf_ok {vs : VarState} (h : varStateOk cfg vs) :
    ∃ vs', trainOf cfg vs pc o = some vs' ∧ varStateOk cfg vs' := by
  rcases varStateOk_cases h with ⟨ht, rfl⟩ | ⟨v, ht, rfl, hv⟩ | ⟨v, ht, rfl, hv⟩ | ⟨v, ht, rfl, hv⟩
  · exact ⟨_, trainOf_static pc o ht, by simp [varStateOk, ht]⟩
  · exact ⟨_, trainOf_gshare pc o ht v, by simpa only [varStateOk, ht] using gshareTrain_ok hv pc o⟩
  · exact ⟨_, trainOf_tournament pc o ht v, by simpa only [varStateOk, ht] using tournTrain_ok hv pc o⟩
  · exact ⟨_, trainOf_custom pc o ht v, by simpa only [varStateOk, ht] using customTrain_ok hv pc o⟩

/-! ### The commands -/

theorem execNop_next {s t : State} (h : execNop s = .next t) : t = s.answer .noValue := by
  cases h; rfl

/-- Everything a completed `PREDICT` did: it answered, and wrote nothing else (R106). -/
theorem execPredict_next {pc : Nat} {s t : State} (h : execPredict pc s = .next t) :
    (∃ f, statusFault .predict s.status = some f ∧ t = s.answer (.fault f)) ∨
    (∃ d, s.status = .ready ∧ predictOf s.cfg s.vs pc = some d ∧ t = s.answer (.pred d)) := by
  unfold execPredict at h
  split at h
  · cases h; exact .inl ⟨_, by assumption, rfl⟩
  · rename_i hs
    split at h
    · cases h; exact .inr ⟨_, by cases hst : s.status <;> simp_all [statusFault], by assumption, rfl⟩
    · cases h

/-- Everything a completed `TRAIN` did: it answered a fault, or trained the variant state (R107). -/
theorem execTrain_next {pc : Nat} {o : Dir} {s t : State} (h : execTrain pc o s = .next t) :
    (∃ f, statusFault .train s.status = some f ∧ t = s.answer (.fault f)) ∨
    (∃ vs, s.status = .ready ∧ trainOf s.cfg s.vs pc o = some vs ∧ t = (s.withVs vs).answer .noValue) := by
  unfold execTrain at h
  split at h
  · cases h; exact .inl ⟨_, by assumption, rfl⟩
  · rename_i hs
    split at h
    · cases h; exact .inr ⟨_, by cases hst : s.status <;> simp_all [statusFault], by assumption, rfl⟩
    · cases h

/-- `INIT` always completes: it resets the variant state, or records the configuration error (R108). -/
theorem execInit_cases (s : State) :
    (∃ var, configCheck s.cfg = [] ∧ variantOfTag s.cfg.variant = some var ∧
      execInit s = .next (initSucceed var s)) ∨
    (configCheck s.cfg ≠ [] ∧ execInit s = .next (initFail (configCheck s.cfg) s)) := by
  unfold execInit
  split
  · exact .inl ⟨_, by assumption, by assumption, rfl⟩
  · rename_i h
    refine .inr ⟨fun hc => ?_, rfl⟩
    obtain ⟨⟨var, hv⟩, -⟩ := (configCheck_nil s.cfg).mp hc
    exact h var hc hv

/-- A command reads nothing of the port, and leaves it as it was. -/
theorem exec_withPort (i : Instr) (s : State) (p : List Nat) :
    exec i (s.withPort p) =
      match exec i s with
      | .next t => .next (t.withPort p)
      | .fault r => .fault r
      | .refused r => .refused r := by
  cases i with
  | nop => rfl
  | predict pc =>
    simp only [exec, execPredict, State.withPort_status, State.withPort_cfg, State.withPort_vs]
    cases statusFault .predict s.status with
    | some f => rfl
    | none => cases predictOf s.cfg s.vs pc <;> rfl
  | train pc o =>
    simp only [exec, execTrain, State.withPort_status, State.withPort_cfg, State.withPort_vs]
    cases statusFault .train s.status with
    | some f => rfl
    | none => cases trainOf s.cfg s.vs pc o <;> rfl
  | init =>
    simp only [exec, execInit, State.withPort_cfg]
    cases configCheck s.cfg <;> cases variantOfTag s.cfg.variant <;> rfl

/-- No command writes `PC_W`, `CFG` or the port. -/
theorem exec_keeps {i : Instr} {s t : State} (h : exec i s = .next t) :
    t.pcW = s.pcW ∧ t.cfg = s.cfg ∧ t.port = s.port := by
  cases i with
  | nop => cases execNop_next h; exact ⟨rfl, rfl, rfl⟩
  | predict pc => rcases execPredict_next h with ⟨_, _, rfl⟩ | ⟨_, _, _, rfl⟩ <;> exact ⟨rfl, rfl, rfl⟩
  | train pc o => rcases execTrain_next h with ⟨_, _, rfl⟩ | ⟨_, _, _, rfl⟩ <;> exact ⟨rfl, rfl, rfl⟩
  | init =>
    rw [exec] at h
    rcases execInit_cases s with ⟨_, _, _, e⟩ | ⟨_, e⟩ <;> (rw [e] at h; cases h; exact ⟨rfl, rfl, rfl⟩)

/-! ### Runs -/

/-- A run is a run of all but the last command, then the last. -/
theorem execAll_concat (is : List Instr) (i : Instr) (s t : State) :
    execAll (is ++ [i]) s = .next t ↔ ∃ u, execAll is s = .next u ∧ exec i u = .next t := by
  induction is generalizing s with
  | nil =>
    simp only [List.nil_append, execAll]
    cases h : exec i s <;> simp [h]
  | cons k is ih =>
    simp only [List.cons_append, execAll]
    cases exec k s with
    | next s' => exact ih s'
    | fault r => simp
    | refused r => simp

end Sys2Proof.Machine
end

