-- ==== Sys2Proof/Laws/PerInstr.lean ====
section
/-! SUPPORT. Statements about every command as syntax, one lemma per constructor. -/

namespace Sys2Proof.Laws.EncodeFits

/-- The word of a well-formed command has `PC_W + 3` bits (30_encoding.md R61). -/
def Statement (i : Instr) : Prop := ∀ pcW, i.wellFormed pcW = true → encode pcW i < 2 ^ cmdWidth pcW

theorem nop : Statement .nop := fun pcW _ => packWord_lt _ _ (Nat.two_pow_pos pcW)

theorem predict (pc : Nat) : Statement (.predict pc) := fun _ h => packWord_lt _ _ (of_decide_eq_true h)

theorem train (pc : Nat) (o : Dir) : Statement (.train pc o) := fun _ h => packWord_lt _ _ (of_decide_eq_true h)

theorem init : Statement .init := fun pcW _ => packWord_lt _ _ (Nat.two_pow_pos pcW)

end Sys2Proof.Laws.EncodeFits
end

