-- ==== Sys2Proof/Machine/Assembler.lean ====
section
/-! DEFINITION. The assembler syntax: one line per command, and the pseudo-command `branch`
(30_encoding.md R71, R72). It is no part of the machine; a test program is spelled in it. What the two rules
leave to a reader is in notes/assumptions/16.md. -/

namespace Sys2Proof.Asm

/-- A blank between words. -/
def isBlank (c : Char) : Bool := c == ' ' || c == '\t' || c == '\r'

/-- The text before a `;`, which starts a comment. -/
def stripComment : List Char → List Char
  | [] => []
  | c :: cs => if c == ';' then [] else c :: stripComment cs

/-- The word gathered so far, reversed, as a token, if there is one. -/
def flush (cur : List Char) (rest : List (List Char)) : List (List Char) :=
  match cur with
  | [] => rest
  | c :: cs => (c :: cs).reverse :: rest

/-- The words of a line; a comma is a word of its own. -/
def tokens : List Char → List Char → List (List Char)
  | [], cur => flush cur []
  | c :: cs, cur =>
    if isBlank c then flush cur (tokens cs [])
    else if c == ',' then flush cur ([','] :: tokens cs [])
    else tokens cs (c :: cur)

/-- The value of a digit below 16. -/
def digit (c : Char) : Option Nat :=
  if '0' ≤ c ∧ c ≤ '9' then some (c.toNat - '0'.toNat)
  else if 'a' ≤ c ∧ c ≤ 'f' then some (c.toNat - 'a'.toNat + 10)
  else if 'A' ≤ c ∧ c ≤ 'F' then some (c.toNat - 'A'.toNat + 10)
  else none

/-- The value of a run of digits after the digits read so far, whose value is `acc`. -/
def digits (base : Nat) : List Char → Nat → Option Nat
  | [], acc => some acc
  | c :: cs, acc =>
    match digit c with
    | some d => if d < base then digits base cs (acc * base + d) else none
    | none => none

/-- A hexadecimal number with prefix `0x`, or a decimal number (R71). -/
def number : List Char → Option Nat
  | [] => none
  | '0' :: 'x' :: c :: cs => digits 16 (c :: cs) 0
  | cs => digits 10 cs 0

/-- A `<pc>` operand, which must be below `2^PC_W` (R71). -/
def pcOperand (pcW : Nat) (cs : List Char) : Option Nat :=
  match number cs with
  | some n => if n < 2 ^ pcW then some n else none
  | none => none

/-- An outcome operand, `T` or `N` (R71). -/
def outcomeOperand (cs : List Char) : Option Dir :=
  match cs with
  | ['T'] => some true
  | ['N'] => some false
  | _ => none

/-- The commands of a line's words: one for a command, two for `branch` (R72), none for an empty line. -/
def commandOf (pcW : Nat) (ts : List (List Char)) : Option (List Instr) :=
  match ts with
  | [] => some []
  | [m] =>
    if m.map Char.toLower = ['n', 'o', 'p'] then some [.nop]
    else if m.map Char.toLower = ['i', 'n', 'i', 't'] then some [.init]
    else none
  | [m, a] =>
    if m.map Char.toLower = ['p', 'r', 'e', 'd', 'i', 'c', 't'] then
      (pcOperand pcW a).map fun pc => [.predict pc]
    else none
  | [m, a, [','], b] =>
    match pcOperand pcW a, outcomeOperand b with
    | some pc, some o =>
      if m.map Char.toLower = ['t', 'r', 'a', 'i', 'n'] then some [.train pc o]
      else if m.map Char.toLower = ['b', 'r', 'a', 'n', 'c', 'h'] then some [.predict pc, .train pc o]
      else none
    | _, _ => none
  | _ => none

/-- The commands of one source line. -/
def parseLine (pcW : Nat) (line : String) : Option (List Instr) :=
  commandOf pcW (tokens (stripComment line.toList) [])

/-- The command words of a program's lines, in order; none where a line is not of the syntax. -/
def assemble (pcW : Nat) : List String → Option (List Nat)
  | [] => some []
  | line :: rest =>
    match parseLine pcW line, assemble pcW rest with
    | some is, some ws => some (is.map (encode pcW) ++ ws)
    | _, _ => none

end Sys2Proof.Asm
end

