-- ==== Sys2Proof/Tests/Slice0.lean ====
section
/-! SUPPORT. The model's own tests. Every expected value is copied from spec/: the vectors and programs of
95_test_vectors.md, the encodings of 30_encoding.md, or a rule read by hand; each comment says which. -/

namespace Sys2Proof.Tests

open Sys2Proof.Machine

/-! ### Well-formedness (30_encoding.md R61, R71): an ill-formed term for each check -/

theorem test_predict_pc_too_wide_refused : (Instr.predict (2 ^ 32)).wellFormed 32 = false := by decide
theorem test_train_pc_too_wide_refused : (Instr.train (2 ^ 32) true).wellFormed 32 = false := by decide
theorem test_greatest_pc_wellFormed :
    (Instr.predict (2 ^ 32 - 1)).wellFormed 32 = true ∧ (Instr.train (2 ^ 32 - 1) false).wellFormed 32 = true ∧
      Instr.nop.wellFormed 32 = true ∧ Instr.init.wellFormed 32 = true := by decide

/-! ### Decoding: words written out field by field, `op`, `o`, then the 32 bits of `pc` -/

/-- `op = 00`, every other field 0, then every other field 1 (95_test_vectors.md section 2.8). -/
theorem test_decode_nop :
    decodeTableWord 40 0b00000000000000000000000000000000000 = some .nop ∧
    decodeTableWord 40 0b00111111111111111111111111111111111 = some .nop := by decide

/-- `op = 01`, `pc = 0x80000001`, the ignored `o` bit both ways. -/
theorem test_decode_predict :
    decodeTableWord 40 0b01010000000000000000000000000000001 = some (.predict 0x80000001) ∧
    decodeTableWord 40 0b01110000000000000000000000000000001 = some (.predict 0x80000001) := by decide

/-- `op = 10`, `o` both ways (95_test_vectors.md section 2.8: `0x4FFFFFFFF`, `0x500000010`). -/
theorem test_decode_train :
    decodeTableWord 40 0b10011111111111111111111111111111111 = some (.train 0xFFFFFFFF false) ∧
    decodeTableWord 40 0b10100000000000000000000000000010000 = some (.train 0x10 true) := by decide

/-- `op = 11` (95_test_vectors.md section 2.8: `0x600000000`, `0x7DEADBEEF`). -/
theorem test_decode_init :
    decodeTableWord 40 0b11000000000000000000000000000000000 = some .init ∧
    decodeTableWord 40 0x7DEADBEEF = some .init := by decide

/-- A number with a 36th bit is no word; an 8-bit `pc` gives 11-bit words. -/
theorem test_decode_width :
    decodeTableWord 40 (2 ^ 35) = none ∧ decode 8 0b01011111111 = .ok (.predict 0xFF) ∧
      decode 8 (2 ^ 11) = .error .wordTooWide := by
  exact ⟨by decide, rfl, rfl⟩

/-- The encodings of 30_encoding.md R70. -/
theorem test_encode_listed_words :
    encode 32 (.predict 0x4) = 0x200000004 ∧ encode 32 (.train 0x4 true) = 0x500000004 ∧
      encode 32 (.train 0x4 false) = 0x400000004 ∧ encode 32 .init = 0x600000000 ∧ encode 32 .nop = 0 := by decide

/-! ### Primitives (95_test_vectors.md section 2) -/

/-- Section 2.1. -/
theorem test_advance_table :
    [0, 1, 2, 3].map (fun c => (advance c true, advance c false, ctrPredict c)) =
      [(1, 0, false), (2, 0, false), (3, 1, true), (3, 2, true)] := by decide

/-- Section 2.2. -/
theorem test_shift_table :
    shiftHist 0b101 true 3 = 0b011 ∧ shiftHist 0b101 false 3 = 0b010 ∧ shiftHist 0 true 1 = 1 ∧
      shiftHist 1 false 1 = 0 ∧ shiftHist 0b1111 true 4 = 0b1111 ∧ shiftHist 0b1000 false 4 = 0 := by decide

/-- The configuration of tests about widths. -/
def cfgOf (variant n l p w : Nat) : Cfg := { variant := variant, n := n, l := l, p := p, w := w }

/-- Section 2.3. -/
theorem test_index_table :
    pcIndex (cfgOf 2 1 1 1 1) 0x11 = 1 ∧ pcIndex (cfgOf 2 1 1 4 1) 0xFFFFFFFF = 0xF ∧
      pcIndex (cfgOf 2 1 1 40 1) 3 = 3 ∧ gshareIndex (cfgOf 1 4 1 1 1) 0x1234 0b1010 = 0xE ∧
      gshareIndex (cfgOf 1 1 1 1 1) 0x4 1 = 1 ∧ gshareIndex (cfgOf 1 2 1 1 1) 0x5 0b11 = 0b10 ∧
      gshareIndex (cfgOf 1 34 1 1 1) 0 1 = 1 ∧ gsvarIndex (cfgOf 3 1 1 1 2) 0x10 0b10 = 2 ∧
      gsvarIndex (cfgOf 3 1 1 1 2) 0x11 0b11 = 2 := by decide

/-- Section 2.4: for `c` = 0 to 3, the inputs (0,0), (0,1), (1,0), (1,1) in this order. -/
theorem test_choiceUpdate_table :
    [0, 1, 2, 3].map (fun c => [choiceUpdate c false false, choiceUpdate c false true,
      choiceUpdate c true false, choiceUpdate c true true]) =
      [[0, 1, 0, 0], [1, 2, 0, 1], [2, 3, 1, 2], [3, 3, 2, 3]] := by decide

/-- Section 2.5, the unreachable rows among them. -/
theorem test_select_table :
    [Three.mk 3 3 3, ⟨2, 3, 3⟩, ⟨2, 2, 3⟩, ⟨3, 0, 0⟩, ⟨4, 3, 0⟩, ⟨2, 2, 2⟩].map selectOption =
      [some 0, some 1, some 2, some 0, some 1, none] := by decide

/-- The eight match triples in the order of section 2.6. -/
def allMatches : List (Three Bool) :=
  [⟨false, false, false⟩, ⟨false, false, true⟩, ⟨false, true, false⟩, ⟨false, true, true⟩,
    ⟨true, false, false⟩, ⟨true, false, true⟩, ⟨true, true, false⟩, ⟨true, true, true⟩]

/-- Section 2.6, the first two blocks. -/
theorem test_scoreUpdate_reachable :
    allMatches.map (scoreUpdate ⟨3, 3, 3⟩) =
      [⟨3, 3, 3⟩, ⟨2, 2, 3⟩, ⟨2, 3, 2⟩, ⟨2, 3, 3⟩, ⟨3, 2, 2⟩, ⟨3, 2, 3⟩, ⟨3, 3, 2⟩, ⟨3, 3, 3⟩] ∧
    allMatches.map (scoreUpdate ⟨2, 3, 1⟩) =
      [⟨2, 3, 1⟩, ⟨2, 3, 2⟩, ⟨1, 3, 0⟩, ⟨1, 3, 1⟩, ⟨3, 3, 1⟩, ⟨3, 3, 2⟩, ⟨2, 3, 0⟩, ⟨2, 3, 1⟩] := by decide

/-- Section 2.6, the other two blocks; the last is outside the reachable set. -/
theorem test_scoreUpdate_corners :
    allMatches.map (scoreUpdate ⟨0, 2, 3⟩) =
      [⟨0, 2, 3⟩, ⟨0, 1, 3⟩, ⟨0, 3, 3⟩, ⟨0, 2, 3⟩, ⟨1, 2, 3⟩, ⟨0, 1, 3⟩, ⟨1, 3, 3⟩, ⟨0, 2, 3⟩] ∧
    allMatches.map (scoreUpdate ⟨1, 0, 2⟩) =
      [⟨1, 0, 2⟩, ⟨1, 0, 3⟩, ⟨1, 1, 2⟩, ⟨1, 1, 3⟩, ⟨2, 0, 2⟩, ⟨2, 0, 3⟩, ⟨2, 1, 2⟩, ⟨2, 1, 3⟩] := by decide

/-- Section 2.7. -/
theorem test_configCheck_table :
    configCheck (cfgOf 1 1 1 1 1) = [] ∧ configCheck (cfgOf 1 0 1 1 1) = [.zeroWidth .n] ∧
      configCheck (cfgOf 0 1 1 1 0) = [.zeroWidth .w] ∧
      configCheck (cfgOf 4 0 0 1 1) = [.badVariant, .zeroWidth .n, .zeroWidth .l] ∧
      configCheck (cfgOf 3 9 10 10 12) = [] := by decide

/-- 10_state.md R38. -/
theorem test_stateBits_tournament : stateBits (cfgOf 2 2 2 2 1) .tournament = 34 := by decide

/-- A write of the initial value takes the entry out of the list (log entry 9). -/
theorem test_write_back_is_canonical : writeCtr (writeCtr [] 5 3) 5 2 = [] := by decide

/-! ### One command on a small state -/

/-- An instance in `READY`, no command pending. -/
def ready (cfg : Cfg) (vs : VarState) : State :=
  { pcW := 32, port := [], cfg := cfg, status := .ready, vs := vs, resp := .idle }

/-- The state a command leaves, if it completes. -/
def after (i : Instr) (s : State) : Option State :=
  match exec i s with
  | .next t => some t
  | .fault _ => none
  | .refused _ => none

/-- The answer of a command, if it completes. -/
def answer (i : Instr) (s : State) : Option Response := (after i s).map (·.resp)

/-- The entries 0 and up of a pattern table. -/
def ctrs (k : Nat) (t : Table Ctr) : List Nat := (List.range k).map fun i => (readCtr t i).toNat

/-- 44_static.md R103, at the greatest `pc`. -/
theorem test_static_predict : answer (.predict 0xFFFFFFFF) (ready (cfgOf 0 1 1 1 1) .static) = some (.pred true) := by
  decide

/-- 44_static.md R104: a misprediction changes nothing but the response. -/
theorem test_static_train :
    after (.train 0x100 false) (ready (cfgOf 0 1 1 1 1) .static) =
      some { ready (cfgOf 0 1 1 1 1) .static with resp := .noValue } := by decide

/-- Program P1 step 7: `T[2] = 1` is read at `0x4` with `G = 0b10`. -/
theorem test_gshare_predict :
    answer (.predict 0x4) (ready (cfgOf 1 2 1 1 1) (.gshare { g := 0b10, t := [(0, 3), (1, 3), (2, 1)] })) =
      some (.pred false) := by decide

/-- Program P1 step 6: `train 0x5, N` from `G = 0b11`, `T = (3,3,2,2)` gives `G = 0b10`, `T = (3,3,1,2)`. -/
theorem test_gshare_train :
    (gshareTrain (cfgOf 1 2 1 1 1) { g := 0b11, t := [(0, 3), (1, 3)] } 0x5 false) =
      { g := 0b10, t := [(0, 3), (1, 3), (2, 1)] } := by decide

/-- Section 2.9, last row: `C[0] = 2` selects local, `TL[1] = 0`. -/
theorem test_tournament_predict_local :
    answer (.predict 0) (ready (cfgOf 2 1 1 1 1)
      (.tournament { g := 0, tg := [(0, 3), (1, 3)], lh := [(0, 1)], tl := [(1, 0)], c := [(0, 2)] })) =
      some (.pred false) := by decide

/-- Section 2.9, third row: local alone is right, so `C[0]` goes from 1 to 2. -/
theorem test_tournament_train_scores_local :
    tournTrain (cfgOf 2 1 1 1 1) { g := 0, tg := [(0, 1)], lh := [], tl := [], c := [] } 0 true =
      { g := 1, tg := [], lh := [(0, 1)], tl := [(0, 3)], c := [(0, 2)] } := by decide

/-- Program P3 step 7: `S[0] = (2,2,3)` selects option 2, whose `TL[0] = 0` predicts `NotTaken`. -/
theorem test_custom_predict :
    answer (.predict 0x10) (ready (cfgOf 3 1 2 1 2)
      (.custom { g := 1, gs := 0b01, tg := [(0, 1), (1, 1)], tgs := [(0, 1), (2, 1)], lh := [(1, 1)],
                 tl := [(0, 0), (1, 1), (2, 3)], s := [(0, ⟨2, 2, 3⟩)] })) = some (.pred false) := by decide

/-- What 95_test_vectors.md lists of a Custom state, for `N = P = 1`, `L = W = 2`, and row 0 of `S`. -/
def customView (v : CustomState) : (Nat × Nat) × (List Nat × List Nat) × (List Nat × List Nat) × Three Nat :=
  ((v.g, v.gs), (ctrs 2 v.tg, ctrs 4 v.tgs), ([readHist v.lh 0, readHist v.lh 1], ctrs 4 v.tl), readRow v.s 0)

/-- Program P3 step 8, from the state after step 7. -/
theorem test_custom_train :
    customView (customTrain (cfgOf 3 1 2 1 2)
      { g := 1, gs := 0b11, tg := [(0, 1)], tgs := [(0, 1), (1, 3), (2, 1)], lh := [(0, 1), (1, 1)],
        tl := [(0, 1), (1, 1), (2, 3)], s := [(0, ⟨2, 3, 3⟩)] } 0x10 true) =
      ((1, 0b11), ([1, 3], [1, 3, 1, 3]), ([3, 1], [1, 2, 3, 2]), ⟨2, 3, 2⟩) := by decide

/-- Program P4 steps 1 and 2, before the first `INIT`. -/
theorem test_before_init :
    answer .nop (State.powerOn 32 (cfgOf 0 1 1 1 1) .absent) = some .noValue ∧
      answer (.predict 0x100) (State.powerOn 32 (cfgOf 0 1 1 1 1) .absent) =
        some (.fault (.notInitialized .predict)) := by decide

/-- Program P5 step 1: `INIT` with `N = 0`. -/
theorem test_config_error :
    (after .init (State.powerOn 32 (cfgOf 1 0 1 1 1) .static)).map (fun s => (s.status, s.vs, s.resp)) =
      some (.configError, .absent, .fault (.configError [.zeroWidth .n])) := by decide

/-- Program P2 step 17: `INIT` gives the Tournament reset state whatever was learned. -/
theorem test_init_tournament :
    (after .init (ready (cfgOf 2 2 2 1 1)
      (.tournament { g := 1, tg := [(0, 3)], lh := [(0, 2)], tl := [(1, 1)], c := [(2, 0)] }))).map (·.vs) =
      some (.tournament { g := 0, tg := [], lh := [], tl := [], c := [] }) := by decide

/-- The host's first-instruction question, for `TRAIN 0x10, T`. -/
theorem test_first_word_after_reset :
    (match step (State.reset.withFetchWord 40 0x500000010) with
      | .next s => some (s.resp, s.port, s.status)
      | .fault _ => none
      | .refused _ => none) = some (.noValue, [], .ready) := by decide

/-! ### The call protocol (70_reset_and_hazards.md R127) and the assembler (30_encoding.md R71, R72) -/

theorem test_protocol :
    followsProtocol none [.init, .predict 4, .nop, .train 4 true, .predict 5, .train 5 false] = true ∧
      followsProtocol none [.predict 4, .predict 5, .train 4 true, .train 5 true] = false ∧
      followsProtocol none [.train 4 true] = false ∧ followsProtocol none [.predict 4] = false := by decide

/-- The words of program P3 step 1 and program P4. -/
theorem test_assemble :
    Asm.assemble 32 ["init ; reset", "branch 0x10, N", "TRAIN 256,T", "", "nop"] =
      some [0x600000000, 0x200000010, 0x400000010, 0x500000100, 0x0] := by decide

theorem test_assemble_refuses :
    Asm.assemble 32 ["predict 0x100000000"] = none ∧ Asm.assemble 32 ["train 0x4"] = none ∧
      Asm.assemble 32 ["predict 0x"] = none ∧ Asm.assemble 32 ["jump 4"] = none := by decide

end Sys2Proof.Tests
end

