-- ==== Sys2Proof/Tests/Witnesses.lean ====
section
/-! SUPPORT. For every statement of Certificates/Slice0/Obligations.lean that has hypotheses, a concrete state and
operands that meet them all together, at a boundary of each clause. -/

namespace Sys2Proof.Tests

open Sys2Proof.Machine

/-! ### Command words -/

/-- DecodeEncodeRoundTrip, WithFetchWordRunsItsCommand, CommandsTakeEffectInIssueOrder: every command, `pc` at its
greatest. -/
theorem witness_wellFormed :
    ∀ i ∈ [Instr.nop, .predict (2 ^ 32 - 1), .train (2 ^ 32 - 1) true, .init], i.wellFormed 32 = true := by decide

/-- EveryCommandWordDecodesByItsFields, OpcodeMaskSelectsTheCommand: the least and the greatest word of every `op`. -/
theorem witness_words :
    ∀ w ∈ [0, 0x1FFFFFFFF, 0x200000000, 0x3FFFFFFFF, 0x400000000, 0x5FFFFFFFF, 0x600000000, 0x7FFFFFFFF],
      w < 2 ^ (32 + 3) := by decide

/-- DecodeIgnoresUnusedFields, a pair of words for each clause. -/
theorem witness_unused_fields :
    (0x000000000 / 2 ^ 33 = 0x1FFFFFFFF / 2 ^ 33 ∧ 0x1FFFFFFFF / 2 ^ 33 = 0) ∧
    (0x600000000 / 2 ^ 33 = 0x7DEADBEEF / 2 ^ 33 ∧ 0x7DEADBEEF / 2 ^ 33 = 3) ∧
    (0x200000004 / 2 ^ 33 = 0x300000004 / 2 ^ 33 ∧ 0x300000004 / 2 ^ 33 = 1 ∧
      0x200000004 % 2 ^ 32 = 0x300000004 % 2 ^ 32) := by decide

/-- TrainHasOneWord: both sides hold of the greatest `TRAIN` word. -/
theorem witness_train_word :
    decode 32 0x5FFFFFFFF = .ok (.train 0xFFFFFFFF true) ∧ 0xFFFFFFFF < 2 ^ 32 ∧
      0x5FFFFFFFF = encode 32 (.train 0xFFFFFFFF true) := ⟨rfl, by decide, by decide⟩

/-- StepRunsTheDecodedCommand, EveryStepCompletes, StepKeepsTheInvariant, NoStepWritesTheConfiguration: a pending word
that decodes, in a state that meets the invariant, and the step it makes. -/
theorem witness_step :
    ∃ s t : State, s.port = [0x200000004] ∧ decode s.pcW 0x200000004 = .ok (.predict 4) ∧ s.Inv ∧ step s = .next t :=
  ⟨State.reset.withFetchWord 40 0x200000004, { State.reset with resp := .pred true }, rfl, rfl,
    ⟨by decide, by decide, ⟨by decide, trivial⟩⟩, rfl⟩

/-- StepWithoutACommandWord: an empty port, and the least number that is no word. -/
theorem witness_no_word :
    State.reset.port = [] ∧ (State.reset.issue (2 ^ 35)).port = [2 ^ 35] ∧ 2 ^ (State.reset.pcW + 3) ≤ 2 ^ 35 := by decide

/-! ### States in `READY`, one of each variant, that meet the invariant -/

def staticReady : State := ready (cfgOf 0 1 1 1 1) .static

/-- Gshare, `N = 1`, after one `Taken` at `0x4` (95_test_vectors.md section 1.6). -/
def gshareReady : State := ready (cfgOf 1 1 1 1 1) (.gshare { g := 1, t := [(0, 3)] })

/-- Tournament, `N = L = P = 1`, after the third row of 95_test_vectors.md section 2.9. -/
def tournamentReady : State :=
  ready (cfgOf 2 1 1 1 1) (.tournament { g := 1, tg := [], lh := [(0, 1)], tl := [(0, 3)], c := [(0, 2)] })

/-- Custom, `N = P = 1`, `L = W = 2`, after program P3 step 7. -/
def customReady : State :=
  ready (cfgOf 3 1 2 1 2)
    (.custom { g := 1, gs := 0b11, tg := [(0, 1)], tgs := [(0, 1), (1, 3), (2, 1)], lh := [(0, 1), (1, 1)],
               tl := [(0, 1), (1, 1), (2, 3)], s := [(0, ⟨2, 3, 3⟩)] })

theorem staticReady_inv : staticReady.Inv := ⟨by decide, by decide, ⟨by decide, trivial⟩⟩
theorem gshareReady_inv : gshareReady.Inv := ⟨by decide, by decide, ⟨by decide, ⟨by decide, by decide⟩⟩⟩
theorem tournamentReady_inv : tournamentReady.Inv :=
  ⟨by decide, by decide, ⟨by decide, ⟨by decide, by decide, by decide, by decide, by decide⟩⟩⟩
theorem customReady_inv : customReady.Inv :=
  ⟨by decide, by decide, ⟨by decide, ⟨by decide, by decide, by decide, by decide, by decide, by decide, by decide⟩⟩⟩

/-- ReadyCommandsNeverFault, EveryCommandSequenceCompletes, TableIndicesAreInRange, CustomPredictNeverFallsBack, and the
result statements of the four variants: their hypotheses on the state. -/
theorem witness_ready :
    (staticReady.Inv ∧ staticReady.status = .ready ∧ staticReady.cfg.variant = 0 ∧ staticReady.vs = .static) ∧
    (gshareReady.Inv ∧ gshareReady.status = .ready ∧ gshareReady.cfg.variant = 1 ∧
      ∃ v, gshareReady.vs = .gshare v) ∧
    (tournamentReady.Inv ∧ tournamentReady.status = .ready ∧ tournamentReady.cfg.variant = 2 ∧
      ∃ v, tournamentReady.vs = .tournament v) ∧
    (customReady.Inv ∧ customReady.status = .ready ∧ customReady.cfg.variant = 3 ∧ ∃ v, customReady.vs = .custom v) :=
  ⟨⟨staticReady_inv, rfl, rfl, rfl⟩, ⟨gshareReady_inv, rfl, rfl, _, rfl⟩, ⟨tournamentReady_inv, rfl, rfl, _, rfl⟩,
    ⟨customReady_inv, rfl, rfl, _, rfl⟩⟩

/-- ASingleConfidentOptionDecides: one option at 3, for each of the three. -/
theorem witness_single_confident :
    (∀ j : Fin 3, (Three.mk 3 0 2).get j = 3 ↔ j = 0) ∧ (∀ j : Fin 3, (Three.mk 2 3 0).get j = 3 ↔ j = 1) ∧
      (∀ j : Fin 3, (Three.mk 2 2 3).get j = 3 ↔ j = 2) ∧
      readRow [(0, Three.mk 3 0 2)] (pcIndex (cfgOf 3 1 2 1 2) 0x10) = ⟨3, 0, 2⟩ := by decide

/-- AliasedBranchesAreOne: two `pc` that agree in the low bits, for each clause. -/
theorem witness_aliases :
    gshareReady.cfg.variant = 1 ∧ 0x4 &&& (2 ^ gshareReady.cfg.n - 1) = 0x6 &&& (2 ^ gshareReady.cfg.n - 1) ∧
    tournamentReady.cfg.variant = 2 ∧
      0x11 &&& (2 ^ tournamentReady.cfg.p - 1) = 0xFFFFFFFF &&& (2 ^ tournamentReady.cfg.p - 1) ∧
    customReady.cfg.variant = 3 ∧ 0x10 &&& (2 ^ customReady.cfg.p - 1) = 0x14 &&& (2 ^ customReady.cfg.p - 1) ∧
      0x10 &&& (2 ^ customReady.cfg.w - 1) = 0x14 &&& (2 ^ customReady.cfg.w - 1) := by decide

/-- GsvarIndexIsTheGshareHash: the greatest `GS` of two bits. -/
theorem witness_gs : 0b11 < 2 ^ (cfgOf 3 1 1 1 2).w := by decide

/-! ### `INIT` and the faults -/

/-- InitResetsTheVariantState: a legal configuration of each variant, the widths at their least. -/
theorem witness_legal :
    ∀ v ∈ [0, 1, 2, 3], (cfgOf v 1 1 1 1).variant ≤ 3 ∧ 1 ≤ (cfgOf v 1 1 1 1).n ∧ 1 ≤ (cfgOf v 1 1 1 1).l ∧
      1 ≤ (cfgOf v 1 1 1 1).p ∧ 1 ≤ (cfgOf v 1 1 1 1).w := by decide

/-- InitRejectsAnIllegalConfiguration: each check fails alone, and all fail together. -/
theorem witness_illegal :
    ∀ c ∈ [cfgOf 4 1 1 1 1, cfgOf 3 0 1 1 1, cfgOf 3 1 0 1 1, cfgOf 3 1 1 0 1, cfgOf 0 1 1 1 0, cfgOf 4 0 0 0 0],
      3 < c.variant ∨ c.n = 0 ∨ c.l = 0 ∨ c.p = 0 ∨ c.w = 0 := by decide

/-- An instance whose `INIT` failed. -/
def failed : State :=
  { State.powerOn 32 (cfgOf 1 0 1 1 1) .absent with
    status := .configError, resp := .fault (.configError [.zeroWidth .n]) }

theorem failed_inv : failed.Inv := ⟨by decide, by decide, ⟨by decide, rfl⟩⟩

/-- CommandsBeforeInitRaiseNotInitialized and CommandsAfterAFailedInitRaiseConfigError: the two values of `STATUS`. -/
theorem witness_not_ready :
    (State.powerOn 32 (cfgOf 1 1 1 1 1) .absent).status = .uninit ∧ failed.status = .configError := by decide

/-- AFaultWritesNothingElse, PredictWritesNoState, TrainWritesOnlyTheVariantState, OnlyInitWritesStatus: a fault of each
command that can fault, and a `TRAIN` that completes. -/
theorem witness_faults :
    (∃ t f, exec (.predict 4) failed = .next t ∧ t.resp = .fault f) ∧
    (∃ t f, exec (.train 4 true) failed = .next t ∧ t.resp = .fault f) ∧
    (∃ t f, exec .init failed = .next t ∧ t.resp = .fault f) ∧
    (∃ t, exec (.train 4 true) staticReady = .next t) ∧ (∃ t, exec (.predict 4) staticReady = .next t) :=
  ⟨⟨_, _, rfl, rfl⟩, ⟨_, _, rfl, rfl⟩, ⟨_, _, rfl, rfl⟩, ⟨_, rfl⟩, ⟨_, rfl⟩⟩

/-- ConfigErrorIsPermanent: an `INIT` and a `PREDICT` from a failed instance. -/
theorem witness_config_error :
    ∃ t, failed.Inv ∧ failed.status = .configError ∧ execAll [.init, .predict 4] failed = .next t :=
  ⟨{ failed with resp := .fault .configErrorSticky }, failed_inv, rfl, rfl⟩

/-- InitDecidesTheStatus: an `INIT` that succeeds, and one that fails. -/
theorem witness_init_both :
    (∃ t, exec .init staticReady = .next t ∧ t.status = .ready) ∧
      ∃ t, exec .init failed = .next t ∧ t.status = .configError :=
  ⟨⟨_, rfl, rfl⟩, ⟨_, rfl, rfl⟩⟩

/-- InitForgetsEverything: two states of one configuration that differ in all else. -/
theorem witness_one_cfg :
    gshareReady.cfg = (State.powerOn 32 (cfgOf 1 1 1 1 1) .absent).cfg ∧
      gshareReady.status ≠ (State.powerOn 32 (cfgOf 1 1 1 1 1) .absent).status ∧
      gshareReady.vs ≠ (State.powerOn 32 (cfgOf 1 1 1 1 1) .absent).vs := by decide

/-- OnlyAMissingVariantStateStopsACommand: a state outside the invariant, for each of the two commands. -/
theorem witness_stop :
    exec (.predict 4) { staticReady with vs := .absent } = .fault .variantStateAbsent ∧
      exec (.train 4 true) { staticReady with vs := .absent } = .fault .variantStateAbsent := ⟨rfl, rfl⟩

/-! ### Runs -/

/-- RepeatedPredictsAgree: a run of `NOP` and `PREDICT` commands. -/
theorem witness_predict_run :
    (∀ i ∈ [Instr.predict 4, .nop], i = .nop ∨ ∃ q, i = .predict q) ∧
      ∃ t, execAll [.predict 4, .nop] staticReady = .next t := by
  refine ⟨fun i hi => ?_, _, rfl⟩
  simp only [List.mem_cons, List.not_mem_nil, or_false] at hi
  rcases hi with rfl | rfl
  · exact .inr ⟨4, rfl⟩
  · exact .inl rfl

/-- PredictsLeaveNoTrace: a run that holds a `PREDICT`. -/
theorem witness_run_with_predict : ∃ t, execAll [.predict 4, .train 4 true] staticReady = .next t := ⟨_, rfl⟩

/-- TheProtocolIsASequenceOfBranches: both sides hold of two branches with a `NOP` and an `INIT` among them, and the left side
fails of a `TRAIN` that stands before its `PREDICT`. -/
theorem witness_protocol :
    followsProtocol none [.predict 4, .nop, .train 4 true, .init, .predict 5, .train 5 false] = true ∧
    branchPart [.predict 4, .nop, .train 4 true, .init, .predict 5, .train 5 false] =
      [(4, true), (5, false)].flatMap branchCommands ∧
    followsProtocol none [.train 4 true, .predict 4] = false := by decide

/-- PredictsSeeEveryEarlierBranch: an `INIT`, one whole branch, and the `PREDICT` of the next, for each variant with a history. -/
theorem witness_second_branch :
    followsProtocol none ([Instr.predict 4, .train 4 true] ++ .predict 5 :: [.train 5 false]) = true ∧
    (∀ i ∈ [Instr.predict 4, .train 4 true], i ≠ .init) ∧
    (∃ s0 t v, exec .init gshareReady = .next s0 ∧ execAll [.predict 4, .train 4 true] s0 = .next t ∧
      t.vs = .gshare v) ∧
    (∃ s0 t v, exec .init tournamentReady = .next s0 ∧ execAll [.predict 4, .train 4 true] s0 = .next t ∧
      t.vs = .tournament v) ∧
    (∃ s0 t v, exec .init customReady = .next s0 ∧ execAll [.predict 4, .train 4 true] s0 = .next t ∧
      t.vs = .custom v) :=
  ⟨by decide, by decide, ⟨_, _, _, rfl, rfl, rfl⟩, ⟨_, _, _, rfl, rfl, rfl⟩, ⟨_, _, _, rfl, rfl, rfl⟩⟩

/-- IssuingAWordKeepsTheInvariant and InvariantHoldsAtTheStart: the greatest word, and the least legal `PC_W`. -/
theorem witness_issue : gshareReady.Inv ∧ 0x7FFFFFFFF < 2 ^ (gshareReady.pcW + 3) ∧ 1 ≤ 1 :=
  ⟨gshareReady_inv, by decide, le_refl 1⟩

/-- OptionCountersStayBoundedWithOneAtThree, GlobalHistoriesAreTheRecentOutcomes, LocalHistoriesAreTheRecentOutcomesThere
(Custom): an `INIT` and a run after it. -/
theorem witness_custom_run :
    ∃ s0 t v, exec .init customReady = .next s0 ∧ s0.status = .ready ∧
      execAll [.train 0x10 false, .predict 0x10] s0 = .next t ∧ t.vs = .custom v :=
  ⟨_, _, _, rfl, rfl, rfl, rfl⟩

/-- GlobalHistoriesAreTheRecentOutcomes (Gshare): an `INIT` and a run after it. -/
theorem witness_gshare_run :
    ∃ s0 t v, exec .init gshareReady = .next s0 ∧ execAll [.train 0x4 true, .nop] s0 = .next t ∧ t.vs = .gshare v :=
  ⟨_, _, _, rfl, rfl, rfl⟩

/-- ChoiceStaysWhileSubPredictorsAgree (and the two history statements for Tournament): an `INIT`, and a `TRAIN` at which both
sub-predictors predict `Taken`. -/
theorem witness_choice_agrees :
    ∃ s0 t v, exec .init tournamentReady = .next s0 ∧ execAll [.train 0 false] s0 = .next t ∧ t.vs = .tournament v ∧
      ∀ (before after : List Instr) (pc : Nat) (o : Dir) (s1 : State) (v1 : TournamentState),
        [Instr.train 0 false] = before ++ .train pc o :: after → execAll before s0 = .next s1 →
        s1.vs = .tournament v1 →
        decide (2 ≤ (readCtr v1.tg v1.g).toNat) =
          decide (2 ≤ (readCtr v1.tl (readHist v1.lh (pcIndex s1.cfg pc))).toNat) := by
  refine ⟨_, _, _, rfl, rfl, rfl, fun before after pc o s1 v1 e h1 hv => ?_⟩
  cases before with
  | nil => cases h1; cases hv; rfl
  | cons i is => simp at e

/-- A Tournament instance just after `INIT`, with the word of `TRAIN 0x0, N` pending. -/
def tournamentTrainPending : State :=
  { ready (cfgOf 2 1 1 1 1) (.tournament { g := 0, tg := [], lh := [], tl := [], c := [] }) with
    port := [0x400000000] }

/-- StepKeepsChoiceWhileSubPredictorsAgree: every choice counter is 1 and both sub-predictors predict `Taken`. -/
theorem witness_choice_step :
    (∀ v, tournamentTrainPending.vs = .tournament v → ∀ g, (readChoice v.c g).toNat = 1) ∧
    (∀ (w : Nat) (rest : List Nat) (pc : Nat) (o : Dir) (v : TournamentState),
      tournamentTrainPending.port = w :: rest → decode tournamentTrainPending.pcW w = .ok (.train pc o) →
      tournamentTrainPending.vs = .tournament v →
      decide (2 ≤ (readCtr v.tg v.g).toNat) =
        decide (2 ≤ (readCtr v.tl (readHist v.lh (pcIndex tournamentTrainPending.cfg pc))).toNat)) ∧
    decode tournamentTrainPending.pcW 0x400000000 = .ok (.train 0 false) ∧
    ∃ t v, step tournamentTrainPending = .next t ∧ t.vs = .tournament v := by
  refine ⟨fun v h g => ?_, fun w rest pc o v _ _ h => ?_, rfl, _, _, rfl, rfl⟩
  · cases h; rfl
  · cases h; rfl

end Sys2Proof.Tests
end

section
/-! The two commands that reach a variant, in `READY`: whatever the variant, `PREDICT` answers what the dispatch
predicts and `TRAIN` writes what the dispatch trains (45_interface_ops.md R105 to R107). -/

namespace Sys2Proof.Machine

theorem exec_predict_of_ready {s : State} {pc : Nat} {d : Dir} (hs : s.status = .ready)
    (hd : predictOf s.cfg s.vs pc = some d) : exec (.predict pc) s = .next (s.answer (.pred d)) := by
  simp [exec, execPredict, statusFault, hs, hd]

theorem exec_train_of_ready {s : State} {pc : Nat} {o : Dir} {vs : VarState} (hs : s.status = .ready)
    (hvs : trainOf s.cfg s.vs pc o = some vs) :
    exec (.train pc o) s = .next ((s.withVs vs).answer .noValue) := by
  simp [exec, execTrain, statusFault, hs, hvs]

/-- Advancing one entry of a pattern table moves that entry one saturating step and leaves the others
(40_primitives.md R73, 20_memory.md R46). -/
theorem readCtr_writeCtr_advance_toNat (t : Table Ctr) (i j : Nat) (o : Dir) :
    (readCtr (writeCtr t i (advance (readCtr t i) o)) j).toNat =
      if j = i then (if o then min ((readCtr t j).toNat + 1) 3 else (readCtr t j).toNat - 1)
      else (readCtr t j).toNat := by
  rw [readCtr_writeCtr]
  by_cases h : j = i
  · subst h
    rw [if_pos rfl, if_pos rfl, advance_toNat]
  · rw [if_neg h, if_neg h]

end Sys2Proof.Machine
end

section
/-! The Gshare variant (41_gshare.md R84, R85). -/

namespace Sys2Proof.Machine

/-- Tag 1 names Gshare (10_state.md R20). -/
theorem variantOfTag_gshare {cfg : Cfg} (h : cfg.variant = 1) : variantOfTag cfg.variant = some .gshare := by
  rw [h]; rfl

theorem exec_predict_gshare {s : State} {v : GshareState} (pc : Nat) (hs : s.status = .ready)
    (hvar : s.cfg.variant = 1) (hv : s.vs = .gshare v) :
    exec (.predict pc) s = .next (s.answer (.pred (gsharePredict s.cfg v pc))) :=
  exec_predict_of_ready hs (hv ▸ predictOf_gshare pc (variantOfTag_gshare hvar) v)

theorem exec_train_gshare {s : State} {v : GshareState} (pc : Nat) (o : Dir) (hs : s.status = .ready)
    (hvar : s.cfg.variant = 1) (hv : s.vs = .gshare v) :
    exec (.train pc o) s = .next ((s.withVs (.gshare (gshareTrain s.cfg v pc o))).answer .noValue) :=
  exec_train_of_ready hs (hv ▸ trainOf_gshare pc o (variantOfTag_gshare hvar) v)

/-- Settles O15: the trained state is `gshareTrain` of the state before, whose one table write is at the hashed
index of the `G` before. -/
theorem gshareTrainAdvancesTheHashedCounter : Obligations.GshareTrainAdvancesTheHashedCounter := by
  unfold Obligations.GshareTrainAdvancesTheHashedCounter
  intro s v pc o hs hvar hv
  refine ⟨gshareTrain s.cfg v pc o, ?next, ?history, fun j => ?counters⟩
  case next => exact exec_train_gshare pc o hs hvar hv
  case history => rfl
  case counters => exact readCtr_writeCtr_advance_toNat v.t (gshareIndex s.cfg pc v.g) j o

/-- Settles O14: the prediction is that of the counter at `gshareIndex`, and the answer changes the response
alone. -/
theorem gsharePredictReadsTheHashedCounter : Obligations.GsharePredictReadsTheHashedCounter := by
  unfold Obligations.GsharePredictReadsTheHashedCounter
  intro s v pc hs hvar hv
  exact exec_predict_gshare pc hs hvar hv

end Sys2Proof.Machine
end

section
/-! The Tournament variant (42_tournament.md R88 to R91). -/

namespace Sys2Proof.Machine

/-- Tag 2 names Tournament (10_state.md R20). -/
theorem variantOfTag_tournament {cfg : Cfg} (h : cfg.variant = 2) :
    variantOfTag cfg.variant = some .tournament := by
  rw [h]; rfl

theorem exec_predict_tournament {s : State} {v : TournamentState} (pc : Nat) (hs : s.status = .ready)
    (hvar : s.cfg.variant = 2) (hv : s.vs = .tournament v) :
    exec (.predict pc) s = .next (s.answer (.pred (tournPredict s.cfg v pc))) :=
  exec_predict_of_ready hs (hv ▸ predictOf_tournament pc (variantOfTag_tournament hvar) v)

theorem exec_train_tournament {s : State} {v : TournamentState} (pc : Nat) (o : Dir) (hs : s.status = .ready)
    (hvar : s.cfg.variant = 2) (hv : s.vs = .tournament v) :
    exec (.train pc o) s = .next ((s.withVs (.tournament (tournTrain s.cfg v pc o))).answer .noValue) :=
  exec_train_of_ready hs (hv ▸ trainOf_tournament pc o (variantOfTag_tournament hvar) v)

/-- The arbiter's threshold from the global side: the choice selects global exactly while it is at most 1
(R88, R90). -/
theorem tournPredict_eq_ite_choice_le_one (cfg : Cfg) (v : TournamentState) (pc : Nat) :
    tournPredict cfg v pc =
      if (readChoice v.c v.g).toNat ≤ 1 then tournGlobal v else tournLocal cfg v pc := by
  unfold tournPredict
  by_cases h : (readChoice v.c v.g).toNat ≤ 1
  · have hGlobal : trustsLocal (readChoice v.c v.g) = false := decide_eq_false (by omega)
    simp [h, hGlobal]
  · have hLocal : trustsLocal (readChoice v.c v.g) = true := decide_eq_true (by omega)
    simp [h, hLocal]

/-- The choice counter scored by two predictions: one step towards the side that alone met the outcome (R89). -/
theorem choiceUpdate_beq_toNat (c : Ctr) (gp lp o : Dir) :
    (choiceUpdate c (gp == o) (lp == o)).toNat =
      if lp = o ∧ gp ≠ o then min (c.toNat + 1) 3
      else if gp = o ∧ lp ≠ o then c.toNat - 1
      else c.toNat := by
  rw [choiceUpdate_eq_advance]
  by_cases hg : gp = o <;> by_cases hl : lp = o <;> simp [hg, hl, advance_toNat]

/-- Scoring one entry of the choice table moves that entry alone (R89, 20_memory.md R46). -/
theorem readChoice_writeChoice_choiceUpdate_toNat (t : Table Ctr) (i j : Nat) (gp lp o : Dir) :
    (readChoice (writeChoice t i (choiceUpdate (readChoice t i) (gp == o) (lp == o))) j).toNat =
      if j = i then
        (if lp = o ∧ gp ≠ o then min ((readChoice t j).toNat + 1) 3
         else if gp = o ∧ lp ≠ o then (readChoice t j).toNat - 1
         else (readChoice t j).toNat)
      else (readChoice t j).toNat := by
  rw [readChoice_writeChoice, ← choiceUpdate_beq_toNat]
  split_ifs with h
  · rw [h]
  · rfl

/-- Settles O17: the trained state is `tournTrain` of the state before, which writes one entry of each table, at
the `G` and the local history before, and scores the choice by the two predictions before. -/
theorem tournamentTrainUpdatesBothSides : Obligations.TournamentTrainUpdatesBothSides := by
  unfold Obligations.TournamentTrainUpdatesBothSides
  intro s v pc o hs hvar hv li lh gp lp
  refine ⟨tournTrain s.cfg v pc o, ?next, fun j => ?globalCounters, fun j => ?localCounters, fun j => ?choices,
    fun j => ?localHistories, ?globalHistory⟩
  case next => exact exec_train_tournament pc o hs hvar hv
  case globalCounters => exact readCtr_writeCtr_advance_toNat v.tg v.g j o
  case localCounters => exact readCtr_writeCtr_advance_toNat v.tl lh j o
  case choices => exact readChoice_writeChoice_choiceUpdate_toNat v.c v.g j gp lp o
  case localHistories => exact readHist_writeHist v.lh li j (shiftHist lh o s.cfg.l)
  case globalHistory => rfl

/-- Settles O16: the answer is `tournPredict`, whose arbiter selects global exactly while the choice is at most 1,
and it changes the response alone. -/
theorem tournamentPredictFollowsTheChoice : Obligations.TournamentPredictFollowsTheChoice := by
  unfold Obligations.TournamentPredictFollowsTheChoice
  intro s v pc hs hvar hv
  rw [exec_predict_tournament pc hs hvar hv, tournPredict_eq_ite_choice_le_one]
  rfl

end Sys2Proof.Machine
end

section
/-! The Custom variant (43_custom.md R94 to R99). -/

namespace Sys2Proof.Machine

/-- Tag 3 names Custom (10_state.md R20). -/
theorem variantOfTag_custom {cfg : Cfg} (h : cfg.variant = 3) : variantOfTag cfg.variant = some .custom := by
  rw [h]; rfl

theorem exec_predict_custom {s : State} {v : CustomState} (pc : Nat) (hs : s.status = .ready)
    (hvar : s.cfg.variant = 3) (hv : s.vs = .custom v) :
    exec (.predict pc) s = .next (s.answer (.pred (customPredict s.cfg v pc))) :=
  exec_predict_of_ready hs (hv ▸ predictOf_custom pc (variantOfTag_custom hvar) v)

theorem exec_train_custom {s : State} {v : CustomState} (pc : Nat) (o : Dir) (hs : s.status = .ready)
    (hvar : s.cfg.variant = 3) (hv : s.vs = .custom v) :
    exec (.train pc o) s = .next ((s.withVs (.custom (customTrain s.cfg v pc o))).answer .noValue) :=
  exec_train_of_ready hs (hv ▸ trainOf_custom pc o (variantOfTag_custom hvar) v)

/-- The voting arbiter as a chain of tests: the sub-predictors are asked in position order, and the first whose
counter in the bucket's row is 3 answers (R95, R96, R98). -/
theorem customPredict_eq_ite (cfg : Cfg) (v : CustomState) (pc : Nat) :
    customPredict cfg v pc =
      if (readRow v.s (pcIndex cfg pc)).glob = 3 then (customReads cfg v pc).glob
      else if (readRow v.s (pcIndex cfg pc)).gsv = 3 then (customReads cfg v pc).gsv
      else if (readRow v.s (pcIndex cfg pc)).loc = 3 then (customReads cfg v pc).loc
      else false := by
  unfold customPredict selectOption
  split_ifs <;> rfl

/-- The score update by its two cases: with a confident option right, each wrong one loses 1 (down to 0); else each
right one gains 1 (R97). -/
theorem scoreUpdate_eq_ite (row : Three Nat) (m : Three Bool) :
    scoreUpdate row m =
      if (m.glob = true ∧ row.glob = 3) ∨ (m.gsv = true ∧ row.gsv = 3) ∨ (m.loc = true ∧ row.loc = 3) then
        { glob := if m.glob then row.glob else row.glob - 1
          gsv := if m.gsv then row.gsv else row.gsv - 1
          loc := if m.loc then row.loc else row.loc - 1 }
      else
        { glob := if m.glob then row.glob + 1 else row.glob
          gsv := if m.gsv then row.gsv + 1 else row.gsv
          loc := if m.loc then row.loc + 1 else row.loc } := by
  simp only [← confidentRight_iff]
  unfold scoreUpdate scoreOne
  cases confidentRight row m <;> rfl

/-- Training scores the row of the branch's bucket by the three predictions before, and leaves the others
(R97, R99, 20_memory.md R46). -/
theorem readRow_customTrain (cfg : Cfg) (v : CustomState) (pc : Nat) (o : Dir) (j : Nat) :
    readRow (customTrain cfg v pc o).s j =
      if j = pcIndex cfg pc then
        scoreUpdate (readRow v.s (pcIndex cfg pc)) (matchBits (customReads cfg v pc) o)
      else readRow v.s j :=
  readRow_writeRow _ _ _ _

/-- Settles O19: the trained state is `customTrain` of the state before, which writes one entry of each table, at
the histories before, and scores the bucket's row by the three predictions before. -/
theorem customTrainUpdatesAllThree : Obligations.CustomTrainUpdatesAllThree := by
  unfold Obligations.CustomTrainUpdatesAllThree
  intro s v pc o hs hvar hv li lh gsIdx row m0 m1 m2
  refine ⟨customTrain s.cfg v pc o, ?next, fun j => ?globalCounters, fun j => ?gsvarCounters,
    fun j => ?localCounters, fun j => ?rows, fun j => ?localHistories, ?globalHistory, ?gsvarHistory⟩
  case next => exact exec_train_custom pc o hs hvar hv
  case globalCounters => exact readCtr_writeCtr_advance_toNat v.tg v.g j o
  case gsvarCounters => exact readCtr_writeCtr_advance_toNat v.tgs gsIdx j o
  case localCounters => exact readCtr_writeCtr_advance_toNat v.tl lh j o
  case rows =>
    have hBits : matchBits (customReads s.cfg v pc) o = { glob := m0, gsv := m1, loc := m2 } := rfl
    rw [readRow_customTrain, hBits, scoreUpdate_eq_ite]
    rfl
  case localHistories => exact readHist_writeHist v.lh li j (shiftHist lh o s.cfg.l)
  case globalHistory => rfl
  case gsvarHistory => rfl

/-- Settles O18: the answer is `customPredict`, which is that of the first option at 3 in position order, and it
changes the response alone. -/
theorem customPredictTakesTheFirstConfidentOption : Obligations.CustomPredictTakesTheFirstConfidentOption := by
  unfold Obligations.CustomPredictTakesTheFirstConfidentOption
  intro s v pc hs hvar hv
  rw [exec_predict_custom pc hs hvar hv, customPredict_eq_ite]
  rfl

end Sys2Proof.Machine
end

section
/-! The Static variant (44_static.md R103, R104). -/

namespace Sys2Proof.Machine

/-- Tag 0 names Static (10_state.md R20). -/
theorem variantOfTag_static {cfg : Cfg} (h : cfg.variant = 0) : variantOfTag cfg.variant = some .static := by
  rw [h]; rfl

/-- Writing the variant state a state already holds changes nothing. -/
theorem State.withVs_eq_self {s : State} {vs : VarState} (h : s.vs = vs) : s.withVs vs = s := by
  subst h; rfl

theorem exec_predict_static {s : State} (pc : Nat) (hs : s.status = .ready) (hvar : s.cfg.variant = 0)
    (hv : s.vs = .static) : exec (.predict pc) s = .next (s.answer (.pred true)) :=
  exec_predict_of_ready hs (hv ▸ predictOf_static pc (variantOfTag_static hvar))

theorem exec_train_static {s : State} (pc : Nat) (o : Dir) (hs : s.status = .ready) (hvar : s.cfg.variant = 0)
    (hv : s.vs = .static) : exec (.train pc o) s = .next ((s.withVs .static).answer .noValue) :=
  exec_train_of_ready hs (hv ▸ trainOf_static pc o (variantOfTag_static hvar))

/-- Settles O12: Static predicts `Taken` at every `pc`, and the answer changes the response alone. -/
theorem staticPredictAnswersTaken : Obligations.StaticPredictAnswersTaken := by
  unfold Obligations.StaticPredictAnswersTaken
  intro s pc hs hvar hv
  exact exec_predict_static pc hs hvar hv

/-- Settles O13: the variant state Static trains to is the one it holds, so the answer changes the response
alone. -/
theorem staticTrainChangesNothing : Obligations.StaticTrainChangesNothing := by
  unfold Obligations.StaticTrainChangesNothing
  intro s pc o hs hvar hv
  rw [exec_train_static pc o hs hvar hv, State.withVs_eq_self hv]
  rfl

end Sys2Proof.Machine
end

section
/-! The command word: its fields as arithmetic, and what the decoder reads from them (30_encoding.md R61 to R68). -/

namespace Sys2Proof

/-! ### The fields of a word -/

/-- The command of the fields `op`, `o` and `pc`, the unused ones dropped (R66). -/
def Instr.ofFields (op : Op) (o : Dir) (pc : Nat) : Instr :=
  match op with
  | .nop => .nop
  | .predict => .predict pc
  | .train => .train pc o
  | .init => .init

theorem Instr.op_ofFields (op : Op) (o : Dir) (pc : Nat) : (Instr.ofFields op o pc).op = op := by
  cases op <;> rfl

theorem opBits_injective {op op' : Op} (h : opBits op = opBits op') : op = op' := by
  revert h; cases op <;> cases op' <;> decide

/-- Every word of `PC_W + 3` bits decodes, by its fields. -/
theorem decode_of_lt {pcW w : Nat} (h : w < 2 ^ cmdWidth pcW) :
    decode pcW w = .ok (Instr.ofFields (opField pcW w) (outcomeField pcW w) (pcField pcW w)) := by
  rw [decode, if_pos h]
  cases opField pcW w <;> rfl

theorem decode_of_le {pcW w : Nat} (h : 2 ^ cmdWidth pcW ≤ w) : decode pcW w = .error .wordTooWide := by
  rw [decode, if_neg (not_lt.mpr h)]

/-- Only a command word decodes. -/
theorem lt_of_decode_ok {pcW w : Nat} {i : Instr} (h : decode pcW w = .ok i) : w < 2 ^ cmdWidth pcW := by
  by_contra hw
  rw [decode_of_le (not_lt.mp hw)] at h
  cases h

/-- The `op` field is the number above the `o` bit (R61, R62). -/
theorem opBits_opField {pcW w : Nat} (h : w < 2 ^ cmdWidth pcW) :
    opBits (opField pcW w) = w / 2 ^ (pcW + 1) := by
  have hq : w / 2 ^ (pcW + 1) < 4 := by
    rw [Nat.div_lt_iff_lt_mul (Nat.two_pow_pos _)]
    calc w < 2 ^ cmdWidth pcW := h
      _ = 4 * 2 ^ (pcW + 1) := by rw [cmdWidth, pow_add, pow_succ]; ring
  have hlow : w.testBit (pcW + 1) = (w / 2 ^ (pcW + 1)).testBit 0 := by
    rw [Nat.testBit_div_two_pow, Nat.zero_add]
  have hhigh : w.testBit (pcW + 2) = (w / 2 ^ (pcW + 1)).testBit 1 := by
    rw [Nat.testBit_div_two_pow, Nat.add_comm 1]
  rw [opField, hlow, hhigh]
  generalize w / 2 ^ (pcW + 1) = q at hq
  revert q
  decide

/-- The `o` field is the bit above `pc` (R61, R65). -/
theorem outcomeField_eq (pcW w : Nat) : outcomeField pcW w = decide (w / 2 ^ pcW % 2 = 1) :=
  Nat.testBit_eq_decide_div_mod_eq

/-- A word is made of its fields: no bit is dropped (R61). -/
theorem packWord_fields {pcW w : Nat} (h : w < 2 ^ cmdWidth pcW) :
    packWord pcW (opField pcW w) (outcomeField pcW w) (pcField pcW w) = w := by
  have ho : (outcomeField pcW w).toNat = w / 2 ^ pcW % 2 := by
    rw [outcomeField_eq]
    rcases Nat.mod_two_eq_zero_or_one (w / 2 ^ pcW) with e | e <;> simp [e]
  have hop : opBits (opField pcW w) = w / 2 ^ pcW / 2 := by
    rw [opBits_opField h, Nat.div_div_eq_div_mul, pow_succ]
  calc packWord pcW (opField pcW w) (outcomeField pcW w) (pcField pcW w)
      = (w / 2 ^ pcW / 2 * 2 + w / 2 ^ pcW % 2) * 2 ^ pcW + w % 2 ^ pcW := by rw [packWord, hop, ho, pcField]
    _ = w / 2 ^ pcW * 2 ^ pcW + w % 2 ^ pcW := by rw [Nat.div_add_mod']
    _ = w := Nat.div_add_mod' w _

/-- Under the opcode mask a word keeps its `op` field alone (R68). -/
theorem and_opcodeMask {pcW w : Nat} (h : w < 2 ^ cmdWidth pcW) :
    w &&& (3 <<< (pcW + 1)) = opBits (opField pcW w) <<< (pcW + 1) := by
  have hq : w / 2 ^ (pcW + 1) % 2 ^ 2 = w / 2 ^ (pcW + 1) :=
    Nat.mod_eq_of_lt (opBits_opField h ▸ opBits_lt _)
  rw [opBits_opField h, ← hq, ← Nat.and_two_pow_sub_one_eq_mod, ← Nat.shiftRight_eq_div_pow]
  refine Nat.eq_of_testBit_eq fun j => ?_
  by_cases hj : pcW + 1 ≤ j <;> simp [Nat.testBit_shiftLeft, hj]

/-! ### Encoding -/

/-- The word of a well-formed command fits (R61). -/
theorem encode_lt {pcW : Nat} {i : Instr} (h : i.wellFormed pcW = true) : encode pcW i < 2 ^ cmdWidth pcW := by
  cases i with
  | nop => exact Laws.EncodeFits.nop pcW h
  | predict pc => exact Laws.EncodeFits.predict pc pcW h
  | train pc o => exact Laws.EncodeFits.train pc o pcW h
  | init => exact Laws.EncodeFits.init pcW h

/-- A packed word decodes to the command of the fields it was packed from. -/
theorem decode_packWord {pcW : Nat} (op : Op) (o : Dir) {pc : Nat} (h : pc < 2 ^ pcW) :
    decode pcW (packWord pcW op o pc) = .ok (Instr.ofFields op o pc) := by
  rw [decode_of_lt (packWord_lt op o h), opField_packWord op o h, outcomeField_packWord op o h,
    pcField_packWord op o h]

theorem decode_encode {pcW : Nat} {i : Instr} (h : i.wellFormed pcW = true) : decode pcW (encode pcW i) = .ok i := by
  cases i with
  | nop => exact decode_packWord .nop false (Nat.two_pow_pos pcW)
  | predict pc => exact decode_packWord .predict false (of_decide_eq_true h)
  | train pc o => exact decode_packWord .train o (of_decide_eq_true h)
  | init => exact decode_packWord .init false (Nat.two_pow_pos pcW)

/-! ### The obligations -/

/-- Settles O1: each field of a packed word reads back what was packed. -/
theorem decodeEncodeRoundTrip : Obligations.DecodeEncodeRoundTrip := by
  unfold Obligations.DecodeEncodeRoundTrip
  intro pcW i h
  exact decode_encode h

/-- Settles O2: the decoder's fields, written as quotients and remainders of the word. -/
theorem everyCommandWordDecodesByItsFields : Obligations.EveryCommandWordDecodesByItsFields := by
  unfold Obligations.EveryCommandWordDecodesByItsFields
  intro pcW w h
  rw [decode_of_lt h, ← opBits_opField h, ← outcomeField_eq]
  cases opField pcW w <;> rfl

/-- Settles O3: the masked word is the `op` field in its place, and the two bits of an `op` tell it from every other. -/
theorem opcodeMaskSelectsTheCommand : Obligations.OpcodeMaskSelectsTheCommand := by
  unfold Obligations.OpcodeMaskSelectsTheCommand
  intro pcW w op h
  have hdecode : (∃ i, decode pcW w = .ok i ∧ i.op = op) ↔ opField pcW w = op := by
    rw [decode_of_lt h]
    simp [Instr.op_ofFields]
  have hshift : opBits (opField pcW w) <<< (pcW + 1) = opBits op <<< (pcW + 1) ↔ opField pcW w = op := by
    constructor
    · intro e
      rw [Nat.shiftLeft_eq, Nat.shiftLeft_eq] at e
      exact opBits_injective (Nat.eq_of_mul_eq_mul_right (Nat.two_pow_pos _) e)
    · intro e
      rw [e]
  rw [hdecode, and_opcodeMask h, ← hshift]
  cases op <;> rfl

/-- Settles O4: words of equal `op` bits have one `op` field, and the command of `NOP`, `INIT` or `PREDICT` does not hold the
fields in which they differ. -/
theorem decodeIgnoresUnusedFields : Obligations.DecodeIgnoresUnusedFields := by
  unfold Obligations.DecodeIgnoresUnusedFields
  intro pcW w w' h h' hq
  have hop : opField pcW w' = opField pcW w :=
    opBits_injective (by rw [opBits_opField h, opBits_opField h', hq])
  rw [decode_of_lt h, decode_of_lt h', hop, ← opBits_opField h]
  constructor
  · rintro (hnop | hinit)
    · rw [opBits_injective (op' := .nop) hnop]
      rfl
    · rw [opBits_injective (op' := .init) hinit]
      rfl
  · intro hpredict hpc
    rw [opBits_injective (op' := .predict) hpredict, Instr.ofFields, Instr.ofFields, pcField, pcField, hpc]

/-- Settles O5: a word is made of its fields, and a `TRAIN` command holds every field. -/
theorem trainHasOneWord : Obligations.TrainHasOneWord := by
  unfold Obligations.TrainHasOneWord
  intro pcW w pc o
  constructor
  · intro h
    have hw := lt_of_decode_ok h
    rw [decode_of_lt hw, Except.ok.injEq] at h
    have hop : opField pcW w = .train := by rw [← Instr.op_ofFields (opField pcW w), h]; rfl
    rw [hop, Instr.ofFields, Instr.train.injEq] at h
    obtain ⟨hpc, ho⟩ := h
    refine ⟨hpc ▸ Nat.mod_lt _ (Nat.two_pow_pos _), ?_⟩
    rw [encode, ← hpc, ← ho, ← hop, packWord_fields hw]
  · rintro ⟨hpc, rfl⟩
    exact decode_encode (decide_eq_true hpc)

/-- Settles O6: each listed word is the encoding of its command at `PC_W = 32`. -/
theorem listedWordsDecodeToTheirCommands : Obligations.ListedWordsDecodeToTheirCommands := by
  unfold Obligations.ListedWordsDecodeToTheirCommands
  refine ⟨?predict, ?trainTaken, ?trainNotTaken, ?init, ?nop⟩
  case predict => exact decode_encode (pcW := 32) (i := .predict 0x4) rfl
  case trainTaken => exact decode_encode (pcW := 32) (i := .train 0x4 true) rfl
  case trainNotTaken => exact decode_encode (pcW := 32) (i := .train 0x4 false) rfl
  case init => exact decode_encode (pcW := 32) (i := .init) rfl
  case nop => exact decode_encode (pcW := 32) (i := .nop) rfl

end Sys2Proof
end

section
/-! Each command by its cases: what it answers, when it completes, and that it reads neither the port nor the last response
(45_interface_ops.md R105 to R109). -/

namespace Sys2Proof.Machine

/-! ### `INIT` and the configuration check -/

theorem configCheck_nil_iff (cfg : Cfg) : configCheck cfg = [] ↔
    cfg.variant ≤ 3 ∧ 1 ≤ cfg.n ∧ 1 ≤ cfg.l ∧ 1 ≤ cfg.p ∧ 1 ≤ cfg.w := by
  rw [configCheck_nil, ← variantOfTag_isSome, Option.isSome_iff_exists]
  simp only [Nat.one_le_iff_ne_zero]

theorem exec_init_of_legal {s : State} {var : Variant} (hc : configCheck s.cfg = [])
    (hvar : variantOfTag s.cfg.variant = some var) : exec .init s = .next (initSucceed var s) := by
  simp [exec, execInit, hc, hvar]

theorem exec_init_of_illegal {s : State} (hc : configCheck s.cfg ≠ []) :
    exec .init s = .next (initFail (configCheck s.cfg) s) := by
  rcases execInit_cases s with ⟨_, hnil, -, -⟩ | ⟨-, e⟩
  · exact absurd hnil hc
  · exact e

/-- Everything a completed `INIT` did: it reset the variant state, or recorded the configuration error (R108). -/
theorem exec_init_next {s t : State} (h : exec .init s = .next t) :
    (∃ var, configCheck s.cfg = [] ∧ variantOfTag s.cfg.variant = some var ∧ t = initSucceed var s) ∨
    (configCheck s.cfg ≠ [] ∧ t = initFail (configCheck s.cfg) s) := by
  rcases execInit_cases s with ⟨var, hc, hvar, e⟩ | ⟨hc, e⟩
  · exact .inl ⟨var, hc, hvar, Host.Outcome.next.inj (h.symm.trans e)⟩
  · exact .inr ⟨hc, Host.Outcome.next.inj (h.symm.trans e)⟩

theorem exec_init_completes (s : State) : ∃ t, exec .init s = .next t := by
  rcases execInit_cases s with ⟨_, -, -, e⟩ | ⟨-, e⟩
  · exact ⟨_, e⟩
  · exact ⟨_, e⟩

theorem checkVariant_eq_ite (cfg : Cfg) : checkVariant cfg = if 3 < cfg.variant then [.badVariant] else [] := by
  have h := variantOfTag_isSome cfg.variant
  unfold checkVariant
  cases hvar : variantOfTag cfg.variant with
  | some var => simp [not_lt.mpr (h.mp (by rw [hvar]; rfl))]
  | none => simp [lt_of_not_ge fun hle => by simpa [hvar] using h.mpr hle]

theorem badVariant_mem_configCheck (cfg : Cfg) : Reason.badVariant ∈ configCheck cfg ↔ 3 < cfg.variant := by
  have hvariant : Reason.badVariant ∈ checkVariant cfg ↔ 3 < cfg.variant := by
    rw [checkVariant_eq_ite]
    split_ifs with h <;> simp [h]
  have hwidth (k : Width) : Reason.badVariant ∉ checkWidth cfg k := by
    unfold checkWidth
    split_ifs <;> simp
  simp [configCheck, hvariant, hwidth]

theorem zeroWidth_mem_configCheck (cfg : Cfg) (k : Width) :
    Reason.zeroWidth k ∈ configCheck cfg ↔ widthOf cfg k = 0 := by
  have hvariant : Reason.zeroWidth k ∉ checkVariant cfg := by
    rw [checkVariant_eq_ite]
    split_ifs <;> simp
  have hwidth (k' : Width) : Reason.zeroWidth k ∈ checkWidth cfg k' ↔ k = k' ∧ widthOf cfg k' = 0 := by
    unfold checkWidth
    split_ifs with h <;> simp [h]
  cases k <;> simp [configCheck, hvariant, hwidth]

/-- No check is listed twice: the failed ones are a part of the list of all five. -/
theorem configCheck_nodup (cfg : Cfg) : (configCheck cfg).Nodup := by
  have hvariant : (checkVariant cfg).Sublist [.badVariant] := by
    rw [checkVariant_eq_ite]
    split_ifs <;> simp
  have hwidth (k : Width) : (checkWidth cfg k).Sublist [.zeroWidth k] := by
    unfold checkWidth
    split_ifs <;> simp
  have hall := (((hvariant.append (hwidth .n)).append (hwidth .l)).append (hwidth .p)).append (hwidth .w)
  exact List.Nodup.sublist hall (by decide)

/-! ### `PREDICT` and `TRAIN` -/

theorem exec_predict_of_fault {s : State} {f : BlockFault} (pc : Nat) (hf : statusFault .predict s.status = some f) :
    exec (.predict pc) s = .next (s.answer (.fault f)) := by
  simp [exec, execPredict, hf, raiseFault]

theorem exec_train_of_fault {s : State} {f : BlockFault} (pc : Nat) (o : Dir)
    (hf : statusFault .train s.status = some f) : exec (.train pc o) s = .next (s.answer (.fault f)) := by
  simp [exec, execTrain, hf, raiseFault]

theorem statusFault_none {op : Op} {st : Status} : statusFault op st = none ↔ st = .ready := by
  cases st <;> simp [statusFault]

/-- A `PREDICT` that completes changes the response alone (R106). -/
theorem exec_predict_next {pc : Nat} {s t : State} (h : exec (.predict pc) s = .next t) : ∃ r, t = s.answer r := by
  rcases execPredict_next h with ⟨f, -, e⟩ | ⟨d, -, -, e⟩
  · exact ⟨_, e⟩
  · exact ⟨_, e⟩

/-- Everything training can do: it keeps the variant, and trains that variant's state (R105, R107). -/
theorem trainOf_cases {cfg : Cfg} {vs vs' : VarState} {pc : Nat} {o : Dir} (h : trainOf cfg vs pc o = some vs') :
    (vs = .static ∧ vs' = .static) ∨
    (∃ v, vs = .gshare v ∧ vs' = .gshare (gshareTrain cfg v pc o)) ∨
    (∃ v, vs = .tournament v ∧ vs' = .tournament (tournTrain cfg v pc o)) ∨
    (∃ v, vs = .custom v ∧ vs' = .custom (customTrain cfg v pc o)) := by
  unfold trainOf at h
  split at h
  · exact .inl ⟨rfl, (Option.some.inj h).symm⟩
  · exact .inr (.inl ⟨_, rfl, (Option.some.inj h).symm⟩)
  · exact .inr (.inr (.inl ⟨_, rfl, (Option.some.inj h).symm⟩))
  · exact .inr (.inr (.inr ⟨_, rfl, (Option.some.inj h).symm⟩))
  · cases h

/-- A variant state of the configured sizes has a prediction for every `pc`. -/
theorem predictOf_of_varStateOk {cfg : Cfg} {vs : VarState} (pc : Nat) (h : varStateOk cfg vs) :
    ∃ d, predictOf cfg vs pc = some d := by
  rcases varStateOk_cases h with ⟨ht, rfl⟩ | ⟨v, ht, rfl, -⟩ | ⟨v, ht, rfl, -⟩ | ⟨v, ht, rfl, -⟩
  · exact ⟨_, predictOf_static pc ht⟩
  · exact ⟨_, predictOf_gshare pc ht v⟩
  · exact ⟨_, predictOf_tournament pc ht v⟩
  · exact ⟨_, predictOf_custom pc ht v⟩

/-! ### What no command reads -/

/-- No command reads the last response. -/
theorem exec_answer (i : Instr) (s : State) (r : Response) : exec i (s.answer r) = exec i s := by
  cases i with
  | nop => rfl
  | predict pc => rfl
  | train pc o => rfl
  | init => rfl

/-! ### When a command completes -/

/-- A command completes where `STATUS` is true to the configuration and the variant state. -/
theorem exec_completes (i : Instr) {s : State} (h : statusOk s) : ∃ t, exec i s = .next t := by
  cases i with
  | nop => exact ⟨_, rfl⟩
  | predict pc =>
    cases hf : statusFault .predict s.status with
    | some f => exact ⟨_, exec_predict_of_fault pc hf⟩
    | none =>
      have hready := statusFault_none.mp hf
      rw [statusOk, hready] at h
      obtain ⟨d, hd⟩ := predictOf_of_varStateOk pc h.2
      exact ⟨_, exec_predict_of_ready hready hd⟩
  | train pc o =>
    cases hf : statusFault .train s.status with
    | some f => exact ⟨_, exec_train_of_fault pc o hf⟩
    | none =>
      have hready := statusFault_none.mp hf
      rw [statusOk, hready] at h
      obtain ⟨vs, hvs, -⟩ := trainOf_ok pc o h.2
      exact ⟨_, exec_train_of_ready hready hvs⟩
  | init => exact exec_init_completes s

theorem exec_ne_refused (i : Instr) (s : State) (r : Refusal) : exec i s ≠ .refused r := by
  intro h
  cases i with
  | nop => cases h
  | predict pc =>
    simp only [exec, execPredict] at h
    split at h
    · cases h
    · split at h <;> cases h
  | train pc o =>
    simp only [exec, execTrain] at h
    split at h
    · cases h
    · split at h <;> cases h
  | init =>
    obtain ⟨t, e⟩ := exec_init_completes s
    cases h.symm.trans e

/-- A command that stops the machine is a `PREDICT` or a `TRAIN` in `READY`. -/
theorem exec_fault {i : Instr} {s : State} {r : Fault} (h : exec i s = .fault r) :
    s.status = .ready ∧ ((∃ pc, i = .predict pc) ∨ ∃ pc o, i = .train pc o) := by
  cases i with
  | nop => cases h
  | predict pc =>
    refine ⟨?_, .inl ⟨pc, rfl⟩⟩
    cases hf : statusFault .predict s.status with
    | none => exact statusFault_none.mp hf
    | some f => cases h.symm.trans (exec_predict_of_fault pc hf)
  | train pc o =>
    refine ⟨?_, .inr ⟨pc, o, rfl⟩⟩
    cases hf : statusFault .train s.status with
    | none => exact statusFault_none.mp hf
    | some f => cases h.symm.trans (exec_train_of_fault pc o hf)
  | init =>
    obtain ⟨t, e⟩ := exec_init_completes s
    cases h.symm.trans e

/-! ### The obligations on one command -/

/-- Settles O11: `NOP` answers 'no value' and does nothing else. -/
theorem nopChangesNothing : Obligations.NopChangesNothing := by
  unfold Obligations.NopChangesNothing
  intro s
  rfl

/-- Settles O20: the configuration passes the check, so `INIT` writes the initial state of the variant the tag names, whose
tables list no entry. -/
theorem initResetsTheVariantState : Obligations.InitResetsTheVariantState := by
  unfold Obligations.InitResetsTheVariantState
  intro s hvariant hn hl hp hw
  have hc := (configCheck_nil_iff s.cfg).mpr ⟨hvariant, hn, hl, hp, hw⟩
  obtain ⟨⟨var, hvar⟩, -⟩ := (configCheck_nil s.cfg).mp hc
  refine ⟨initVarState var, exec_init_of_legal hc hvar, fun h => ?static, fun h => ?gshare, fun h => ?tournament,
    fun h => ?custom⟩
  case static =>
    cases Option.some.inj (hvar.symm.trans (variantOfTag_static h))
    rfl
  case gshare =>
    cases Option.some.inj (hvar.symm.trans (variantOfTag_gshare h))
    exact ⟨_, rfl, rfl, fun _ => rfl⟩
  case tournament =>
    cases Option.some.inj (hvar.symm.trans (variantOfTag_tournament h))
    exact ⟨_, rfl, rfl, fun _ => rfl, fun _ => rfl, fun _ => rfl, fun _ => rfl⟩
  case custom =>
    cases Option.some.inj (hvar.symm.trans (variantOfTag_custom h))
    exact ⟨_, rfl, rfl, rfl, fun _ => rfl, fun _ => rfl, fun _ => rfl, fun _ => rfl, fun _ => rfl⟩

/-- Settles O21: the reasons are the list `configCheck` builds, which holds each failed check once. -/
theorem initRejectsAnIllegalConfiguration : Obligations.InitRejectsAnIllegalConfiguration := by
  unfold Obligations.InitRejectsAnIllegalConfiguration
  intro s hbad
  have hc : configCheck s.cfg ≠ [] := by
    rw [Ne, configCheck_nil_iff]
    omega
  exact ⟨configCheck s.cfg, exec_init_of_illegal hc, configCheck_nodup s.cfg, badVariant_mem_configCheck s.cfg,
    zeroWidth_mem_configCheck s.cfg .n, zeroWidth_mem_configCheck s.cfg .l, zeroWidth_mem_configCheck s.cfg .p,
    zeroWidth_mem_configCheck s.cfg .w⟩

/-- Settles O22: `UNINIT` makes both commands raise `NotInitialized`. -/
theorem commandsBeforeInitRaiseNotInitialized : Obligations.CommandsBeforeInitRaiseNotInitialized := by
  unfold Obligations.CommandsBeforeInitRaiseNotInitialized
  intro s pc o hs
  exact ⟨exec_predict_of_fault pc (by rw [hs]; rfl), exec_train_of_fault pc o (by rw [hs]; rfl), rfl, rfl⟩

/-- Settles O23: `CONFIG_ERROR` makes both commands raise the sticky fault. -/
theorem commandsAfterAFailedInitRaiseConfigError : Obligations.CommandsAfterAFailedInitRaiseConfigError := by
  unfold Obligations.CommandsAfterAFailedInitRaiseConfigError
  intro s pc o hs
  exact ⟨exec_predict_of_fault pc (by rw [hs]; rfl), exec_train_of_fault pc o (by rw [hs]; rfl), rfl⟩

/-- Settles O24: of the ways a command completes, those that answer a fault are `raiseFault` and the failing `INIT`. -/
theorem aFaultWritesNothingElse : Obligations.AFaultWritesNothingElse := by
  unfold Obligations.AFaultWritesNothingElse
  intro i s t f h hf
  cases i with
  | nop => cases execNop_next h; cases hf
  | predict pc =>
    rcases execPredict_next h with ⟨f', -, rfl⟩ | ⟨d, -, -, rfl⟩
    · cases hf
      exact ⟨by simp, by simp, fun _ => rfl⟩
    · cases hf
  | train pc o =>
    rcases execTrain_next h with ⟨f', -, rfl⟩ | ⟨vs, -, -, rfl⟩
    · cases hf
      exact ⟨by simp, by simp, fun _ => rfl⟩
    · cases hf
  | init =>
    rcases exec_init_next h with ⟨var, -, -, rfl⟩ | ⟨-, rfl⟩
    · cases hf
    · cases hf
      exact ⟨by simp, fun _ => rfl, by simp⟩

/-- Settles O26: `INIT` takes its succeeding case exactly when the check finds nothing. -/
theorem initDecidesTheStatus : Obligations.InitDecidesTheStatus := by
  unfold Obligations.InitDecidesTheStatus
  intro s t h
  rw [← configCheck_nil_iff]
  rcases exec_init_next h with ⟨var, hc, -, rfl⟩ | ⟨hc, rfl⟩
  · simp [initSucceed, hc]
  · simp [initFail, raiseFault, hc]

theorem exec_status {i : Instr} {s t : State} (h : exec i s = .next t) (hi : i ≠ .init) : t.status = s.status := by
  cases i with
  | nop => cases execNop_next h; rfl
  | predict pc => obtain ⟨r, rfl⟩ := exec_predict_next h; rfl
  | train pc o => rcases execTrain_next h with ⟨_, -, rfl⟩ | ⟨_, -, -, rfl⟩ <;> rfl
  | init => exact absurd rfl hi

/-- Settles O28: no case of the other three commands writes `STATUS`. -/
theorem onlyInitWritesStatus : Obligations.OnlyInitWritesStatus := by
  unfold Obligations.OnlyInitWritesStatus
  intro i s t
  exact exec_status

/-- Settles O29: both cases of a completed `PREDICT` are answers. -/
theorem predictWritesNoState : Obligations.PredictWritesNoState := by
  unfold Obligations.PredictWritesNoState
  intro s t pc h
  rcases execPredict_next h with ⟨f, -, rfl⟩ | ⟨d, -, -, rfl⟩
  · exact ⟨rfl, .inr ⟨f, rfl⟩⟩
  · exact ⟨rfl, .inl ⟨d, rfl⟩⟩

/-- Settles O30: a completed `TRAIN` keeps the variant state or trains it, and training keeps the variant. -/
theorem trainWritesOnlyTheVariantState : Obligations.TrainWritesOnlyTheVariantState := by
  unfold Obligations.TrainWritesOnlyTheVariantState
  intro s t pc o h
  rcases execTrain_next h with ⟨f, -, rfl⟩ | ⟨vs, -, hvs, rfl⟩
  · refine ⟨rfl, ?_⟩
    rw [State.answer_vs]
    cases s.vs <;> trivial
  · refine ⟨rfl, ?_⟩
    rw [State.answer_vs, State.withVs_vs]
    rcases trainOf_cases hvs with ⟨e, rfl⟩ | ⟨v, e, rfl⟩ | ⟨v, e, rfl⟩ | ⟨v, e, rfl⟩ <;> rw [e] <;> trivial

/-- Settles O32: in `READY` the invariant gives the configured variant's state, which predicts and trains. -/
theorem readyCommandsNeverFault : Obligations.ReadyCommandsNeverFault := by
  unfold Obligations.ReadyCommandsNeverFault
  intro s hinv hready
  have hstatus := hinv.status
  rw [statusOk, hready] at hstatus
  obtain ⟨-, hvs⟩ := hstatus
  refine ⟨fun pc => ?_, fun pc o => ?_, rfl⟩
  · obtain ⟨d, hd⟩ := predictOf_of_varStateOk pc hvs
    exact ⟨d, exec_predict_of_ready hready hd⟩
  · obtain ⟨vs, hvs', -⟩ := trainOf_ok pc o hvs
    exact ⟨vs, exec_train_of_ready hready hvs'⟩

/-- Settles O35: the response is no input of any command. -/
theorem commandsIgnoreTheLastResponse : Obligations.CommandsIgnoreTheLastResponse := by
  unfold Obligations.CommandsIgnoreTheLastResponse
  intro i s r
  exact exec_answer i s r

/-- Settles O38: a stop is of a `PREDICT` or `TRAIN` in `READY`, and under the invariant every command completes. -/
theorem onlyAMissingVariantStateStopsACommand : Obligations.OnlyAMissingVariantStateStopsACommand := by
  unfold Obligations.OnlyAMissingVariantStateStopsACommand
  intro i s
  refine ⟨exec_ne_refused i s, fun r h => ?_⟩
  obtain ⟨hready, hi⟩ := exec_fault h
  refine ⟨by cases r; rfl, hready, fun hinv => ?_, hi⟩
  obtain ⟨t, ht⟩ := exec_completes i hinv.status
  cases h.symm.trans ht

/-- Settles O42: `INIT` writes what `CFG` alone decides, in both of its cases. -/
theorem initForgetsEverything : Obligations.InitForgetsEverything := by
  unfold Obligations.InitForgetsEverything
  intro s s' hcfg
  rcases execInit_cases s with ⟨var, hc, hvar, e⟩ | ⟨hc, e⟩
  · exact ⟨_, _, e, exec_init_of_legal (hcfg ▸ hc) (hcfg ▸ hvar), rfl, rfl, hcfg, rfl⟩
  · exact ⟨_, _, e, exec_init_of_illegal (hcfg ▸ hc), rfl, rfl, hcfg, by rw [hcfg]; rfl⟩

/-- Settles O43: the setup configuration is legal and its tag names Static, so `INIT` leaves the reset state. -/
theorem resetIsTheInitOfPowerOn : Obligations.ResetIsTheInitOfPowerOn := by
  unfold Obligations.ResetIsTheInitOfPowerOn
  intro vs
  exact exec_init_of_legal (var := .static) rfl rfl

end Sys2Proof.Machine
end

section
/-! One step, and runs of steps and commands: what every command keeps, every run keeps (20_memory.md R54, R56,
70_reset_and_hazards.md R132). -/

namespace Sys2Proof.Machine

/-! ### One step -/

theorem step_of_decode {s : State} {w : Nat} {rest : List Nat} {i : Instr} (hport : s.port = w :: rest)
    (hi : decode s.pcW w = .ok i) : step s = exec i (s.withPort rest) := by
  simp [step, fetch, hport, hi]

theorem step_of_port_nil {s : State} (hport : s.port = []) : step s = .next s := by
  simp [step, fetch, hport]

theorem step_of_le {s : State} {w : Nat} {rest : List Nat} (hport : s.port = w :: rest)
    (hw : 2 ^ cmdWidth s.pcW ≤ w) : step s = .refused .wordTooWide := by
  simp [step, fetch, hport, decode_of_le hw]

/-- Everything a step that answers next did: nothing, with no command pending, or the oldest command. -/
theorem step_next {s t : State} (h : step s = .next t) :
    (s.port = [] ∧ t = s) ∨
    ∃ w rest i, s.port = w :: rest ∧ decode s.pcW w = .ok i ∧ exec i (s.withPort rest) = .next t := by
  cases hport : s.port with
  | nil => exact .inl ⟨rfl, Host.Outcome.next.inj (h.symm.trans (step_of_port_nil hport))⟩
  | cons w rest =>
    rcases lt_or_ge w (2 ^ cmdWidth s.pcW) with hw | hw
    · exact .inr ⟨w, rest, _, rfl, decode_of_lt hw, (step_of_decode hport (decode_of_lt hw)).symm.trans h⟩
    · cases h.symm.trans (step_of_le hport hw)

/-- A step on the word of a well-formed command runs that command. -/
theorem step_encode {s : State} {i : Instr} {rest : List Nat} (hi : i.wellFormed s.pcW = true)
    (hport : s.port = encode s.pcW i :: rest) : step s = exec i (s.withPort rest) :=
  step_of_decode hport (decode_encode hi)

/-! ### Runs of commands -/

/-- What each command of a list keeps, the run of the list keeps. -/
theorem execAll_keeps {P : State → Prop} {is : List Instr}
    (hkeeps : ∀ i ∈ is, ∀ s t, P s → exec i s = .next t → P t) {s t : State} (hs : P s)
    (h : execAll is s = .next t) : P t := by
  induction is generalizing s with
  | nil => cases h; exact hs
  | cons i is ih =>
    rw [execAll] at h
    cases hi : exec i s with
    | next u =>
      rw [hi] at h
      exact ih (fun k hk => hkeeps k (List.mem_cons_of_mem i hk)) (hkeeps i List.mem_cons_self s u hs hi) h
    | fault r => rw [hi] at h; cases h
    | refused r => rw [hi] at h; cases h

theorem execAll_cfg {is : List Instr} {s t : State} (h : execAll is s = .next t) : t.cfg = s.cfg := by
  refine execAll_keeps (P := fun u => u.cfg = s.cfg) (fun i _ u v hu hv => ?_) rfl h
  obtain ⟨-, hcfg, -⟩ := exec_keeps hv
  exact hcfg.trans hu

/-- A run from another last response is the same run, and differs at most in the response it ends with. -/
theorem execAll_answer {is : List Instr} {s t : State} {r : Response} (h : execAll is (s.answer r) = .next t) :
    ∃ r', execAll is s = .next (t.answer r') := by
  cases is with
  | nil => cases h; exact ⟨s.resp, rfl⟩
  | cons i is =>
    rw [execAll, exec_answer] at h
    exact ⟨t.resp, h⟩

/-! ### The obligations on steps and runs -/

/-- Settles O7: `fetch` takes the oldest word, and the step executes what it decodes to. -/
theorem stepRunsTheDecodedCommand : Obligations.StepRunsTheDecodedCommand := by
  unfold Obligations.StepRunsTheDecodedCommand
  intro s w rest i hport hi
  exact step_of_decode hport hi

/-- Settles O8: `fetch` finds no word, or a number the decoder refuses. -/
theorem stepWithoutACommandWord : Obligations.StepWithoutACommandWord := by
  unfold Obligations.StepWithoutACommandWord
  exact ⟨fun s hport => step_of_port_nil hport, fun s w rest hport hw => step_of_le hport hw⟩

/-- Settles O9, by induction on the commands: the first step runs the first command, which leaves `PC_W` and the words after
its own as they were. -/
theorem commandsTakeEffectInIssueOrder : Obligations.CommandsTakeEffectInIssueOrder := by
  unfold Obligations.CommandsTakeEffectInIssueOrder
  intro s is rest hwf
  change runSteps is.length (s.withPort (is.map (encode s.pcW) ++ rest)) = execAll is (s.withPort rest)
  induction is generalizing s with
  | nil => rfl
  | cons i is ih =>
    have hfirst : step (s.withPort ((i :: is).map (encode s.pcW) ++ rest)) =
        exec i (s.withPort (is.map (encode s.pcW) ++ rest)) :=
      step_encode (hwf i List.mem_cons_self) rfl
    rw [List.length_cons, runSteps, execAll, hfirst, exec_withPort, exec_withPort i s rest]
    cases hi : exec i s with
    | next t =>
      obtain ⟨hpcW, -, -⟩ := exec_keeps hi
      have hrest := ih t fun k hk => hpcW ▸ hwf k (List.mem_cons_of_mem i hk)
      rw [hpcW] at hrest
      exact hrest
    | fault r => rfl
    | refused r => rfl

/-- Settles O10: a 35-bit word is among the 40 bits placed, and the step decodes it at `PC_W = 32`. -/
theorem withFetchWordRunsItsCommand : Obligations.WithFetchWordRunsItsCommand := by
  unfold Obligations.WithFetchWordRunsItsCommand
  intro s i hi
  have hword : tableWord 40 (encode 32 i) = encode 32 i :=
    Nat.mod_eq_of_lt ((encode_lt hi).trans_le (Nat.pow_le_pow_right (by decide) (by decide)))
  exact step_encode (s := s.withFetchWord 40 (encode 32 i)) (rest := s.port) hi
    (by rw [State.withFetchWord, hword]; rfl)

/-- Settles O27: a step does nothing or runs a command, and no command writes `CFG` or `PC_W`. -/
theorem noStepWritesTheConfiguration : Obligations.NoStepWritesTheConfiguration := by
  unfold Obligations.NoStepWritesTheConfiguration
  intro s t h
  rcases step_next h with ⟨-, rfl⟩ | ⟨w, rest, i, -, -, hexec⟩
  · exact ⟨rfl, rfl⟩
  · obtain ⟨hpcW, hcfg, -⟩ := exec_keeps hexec
    exact ⟨hcfg, hpcW⟩

/-- Settles O31: such a run changes at most the response, which a `PREDICT` does not read. -/
theorem repeatedPredictsAgree : Obligations.RepeatedPredictsAgree := by
  unfold Obligations.RepeatedPredictsAgree
  intro is s s' pc his h
  have hanswer : ∃ r, s' = s.answer r := by
    refine execAll_keeps (P := fun u => ∃ r, u = s.answer r) (fun i hi u v hu hv => ?_) ⟨s.resp, rfl⟩ h
    obtain ⟨r, rfl⟩ := hu
    rw [exec_answer] at hv
    rcases his i hi with rfl | ⟨q, rfl⟩
    · exact ⟨_, execNop_next hv⟩
    · exact exec_predict_next hv
  obtain ⟨r, rfl⟩ := hanswer
  exact exec_answer _ s r

/-- Settles O36, by induction on the commands: a `PREDICT` leaves only its response, which the run after it does not read. -/
theorem predictsLeaveNoTrace : Obligations.PredictsLeaveNoTrace := by
  unfold Obligations.PredictsLeaveNoTrace
  intro is s t h
  change ∃ r, execAll (is.filter fun i => decide (i.op ≠ .predict)) s = .next (t.answer r)
  induction is generalizing s with
  | nil => cases h; exact ⟨t.resp, rfl⟩
  | cons i is ih =>
    rw [execAll] at h
    cases hi : exec i s with
    | fault r => rw [hi] at h; cases h
    | refused r => rw [hi] at h; cases h
    | next u =>
      rw [hi] at h
      obtain ⟨r, hr⟩ := ih u h
      by_cases hop : i.op = .predict
      · cases i with
        | predict pc =>
          obtain ⟨_, rfl⟩ := exec_predict_next hi
          obtain ⟨r', hr'⟩ := execAll_answer hr
          rw [List.filter_cons_of_neg (by simp [hop])]
          exact ⟨r', hr'⟩
        | nop => cases hop
        | train pc o => cases hop
        | init => cases hop
      · rw [List.filter_cons_of_pos (by simpa using hop), execAll, hi]
        exact ⟨r, hr⟩

end Sys2Proof.Machine
end

section
/-! The invariant: it holds at the start, and every command, step and issued word keeps it. -/

namespace Sys2Proof.Machine

/-! ### What `STATUS` says, kept by every command -/

/-- What `STATUS` says does not depend on the port, on `PC_W` or on the response. -/
theorem statusOk_congr {s t : State} (hcfg : t.cfg = s.cfg) (hstatus : t.status = s.status) (hvs : t.vs = s.vs)
    (h : statusOk s) : statusOk t := by
  rw [statusOk] at h ⊢
  rwa [hcfg, hstatus, hvs]

theorem statusOk_answer {s : State} (r : Response) (h : statusOk s) : statusOk (s.answer r) :=
  statusOk_congr rfl rfl rfl h

theorem statusOk_ready {s : State} (hready : s.status = .ready) :
    statusOk s ↔ configCheck s.cfg = [] ∧ varStateOk s.cfg s.vs := by
  rw [statusOk, hready]

theorem statusOk_configError {s : State} (herr : s.status = .configError) :
    statusOk s ↔ configCheck s.cfg ≠ [] ∧ s.vs = .absent := by
  rw [statusOk, herr]

/-- `INIT` leaves a `STATUS` that is true, from every state. -/
theorem exec_init_statusOk {s t : State} (h : exec .init s = .next t) : statusOk t := by
  rcases exec_init_next h with ⟨var, hc, hvar, rfl⟩ | ⟨hc, rfl⟩
  · exact (statusOk_ready rfl).mpr ⟨hc, initVarState_ok hvar⟩
  · exact (statusOk_configError rfl).mpr ⟨hc, rfl⟩

theorem exec_statusOk {i : Instr} {s t : State} (hs : statusOk s) (h : exec i s = .next t) : statusOk t := by
  cases i with
  | nop =>
    cases execNop_next h
    exact statusOk_answer _ hs
  | predict pc =>
    obtain ⟨r, rfl⟩ := exec_predict_next h
    exact statusOk_answer r hs
  | train pc o =>
    rcases execTrain_next h with ⟨f, -, rfl⟩ | ⟨vs, hready, hvs, rfl⟩
    · exact statusOk_answer _ hs
    · obtain ⟨hc, hok⟩ := (statusOk_ready hready).mp hs
      obtain ⟨vs', hvs', hok'⟩ := trainOf_ok pc o hok
      cases Option.some.inj (hvs.symm.trans hvs')
      exact (statusOk_ready (s := (s.withVs vs).answer .noValue) hready).mpr ⟨hc, hok'⟩
  | init => exact exec_init_statusOk h

theorem execAll_statusOk {is : List Instr} {s t : State} (hs : statusOk s) (h : execAll is s = .next t) :
    statusOk t :=
  execAll_keeps (fun _ _ _ _ hu hv => exec_statusOk hu hv) hs h

/-- With a `STATUS` that is true, it says `CONFIG_ERROR` after a command if it did before, and likewise `READY`: `INIT` finds
the same `CFG` as the `INIT` before. -/
theorem exec_status_of_statusOk {i : Instr} {s t : State} (hs : statusOk s) (hinit : s.status ≠ .uninit)
    (h : exec i s = .next t) : t.status = s.status := by
  by_cases hi : i = .init
  · subst hi
    rcases exec_init_next h with ⟨var, hc, -, rfl⟩ | ⟨hc, rfl⟩ <;> cases hst : s.status
    · exact absurd hst hinit
    · rfl
    · exact absurd hc ((statusOk_configError hst).mp hs).1
    · exact absurd hst hinit
    · exact absurd ((statusOk_ready hst).mp hs).1 hc
    · rfl
  · exact exec_status h hi

theorem execAll_status_of_statusOk {is : List Instr} {s t : State} (hs : statusOk s) (hinit : s.status ≠ .uninit)
    (h : execAll is s = .next t) : t.status = s.status := by
  have hkeeps : ∀ i ∈ is, ∀ u v : State, statusOk u ∧ u.status = s.status → exec i u = .next v →
      statusOk v ∧ v.status = s.status := by
    rintro i - u v ⟨hu, hstatus⟩ hv
    exact ⟨exec_statusOk hu hv, (exec_status_of_statusOk hu (hstatus ▸ hinit) hv).trans hstatus⟩
  exact (execAll_keeps hkeeps ⟨hs, rfl⟩ h).2

/-! ### The invariant as a whole -/

theorem exec_inv {i : Instr} {s t : State} (hs : s.Inv) (h : exec i s = .next t) : t.Inv := by
  obtain ⟨hpcW, -, hport⟩ := exec_keeps h
  exact ⟨hpcW ▸ hs.pcW, by rw [hpcW, hport]; exact hs.port, exec_statusOk hs.status h⟩

/-- Pending words may be taken or issued, as long as each is a command word. -/
theorem State.Inv.withPort {s : State} {p : List Nat} (hs : s.Inv) (hp : ∀ w ∈ p, w < 2 ^ cmdWidth s.pcW) :
    (s.withPort p).Inv :=
  ⟨hs.pcW, hp, statusOk_congr rfl rfl rfl hs.status⟩

/-- Taking the oldest word keeps the invariant. -/
theorem State.Inv.of_port_cons {s : State} {w : Nat} {rest : List Nat} (hs : s.Inv) (hport : s.port = w :: rest) :
    (s.withPort rest).Inv :=
  hs.withPort fun w' hw' => hs.port w' (hport ▸ List.mem_cons_of_mem w hw')

/-! ### The obligations -/

/-- Settles O44: taking the word keeps the invariant, and so does the command it decodes to. -/
theorem stepKeepsTheInvariant : Obligations.StepKeepsTheInvariant := by
  unfold Obligations.StepKeepsTheInvariant
  intro s t hs h
  rcases step_next h with ⟨-, rfl⟩ | ⟨w, rest, i, hport, -, hexec⟩
  · exact hs
  · exact exec_inv (hs.of_port_cons hport) hexec

/-- Settles O45: the reset state is Static after a successful `INIT`, and at power-on `STATUS` says nothing. -/
theorem invariantHoldsAtTheStart : Obligations.InvariantHoldsAtTheStart := by
  unfold Obligations.InvariantHoldsAtTheStart
  refine ⟨⟨by decide, by simp [State.reset], (statusOk_ready rfl).mpr ⟨rfl, trivial⟩⟩, fun pcW cfg vs hpcW => ?_⟩
  exact ⟨hpcW, by simp [State.powerOn], trivial⟩

/-- Settles O46: the port's words stay words when one joins them. -/
theorem issuingAWordKeepsTheInvariant : Obligations.IssuingAWordKeepsTheInvariant := by
  unfold Obligations.IssuingAWordKeepsTheInvariant
  intro s w hs hw
  refine hs.withPort fun w' hw' => ?_
  rcases List.mem_append.mp hw' with hold | hnew
  · exact hs.port w' hold
  · cases List.mem_singleton.mp hnew
    exact hw

/-- Settles O25: the recorded error is true of `CFG`, which no command writes, so that every further `INIT` finds it again. -/
theorem configErrorIsPermanent : Obligations.ConfigErrorIsPermanent := by
  unfold Obligations.ConfigErrorIsPermanent
  intro is s t hinv herr h
  have hstatus : t.status = .configError :=
    (execAll_status_of_statusOk hinv.status (by simp [herr]) h).trans herr
  obtain ⟨-, hvs⟩ := (statusOk_configError hstatus).mp (execAll_statusOk hinv.status h)
  exact ⟨hstatus, hvs, execAll_cfg h⟩

/-- Settles O33: under the invariant the oldest number is a command word, and its command completes. -/
theorem everyStepCompletes : Obligations.EveryStepCompletes := by
  unfold Obligations.EveryStepCompletes
  intro s hs
  cases hport : s.port with
  | nil => exact ⟨s, step_of_port_nil hport⟩
  | cons w rest =>
    have hw : w < 2 ^ cmdWidth s.pcW := hs.port w (hport ▸ List.mem_cons_self)
    rw [step_of_decode hport (decode_of_lt hw)]
    exact exec_completes _ (hs.of_port_cons hport).status

/-- Settles O34, by induction on the commands: each completes, and keeps what the next one needs. -/
theorem everyCommandSequenceCompletes : Obligations.EveryCommandSequenceCompletes := by
  unfold Obligations.EveryCommandSequenceCompletes
  intro is s hs
  induction is generalizing s with
  | nil => exact ⟨s, rfl⟩
  | cons i is ih =>
    obtain ⟨t, ht⟩ := exec_completes i hs.status
    rw [execAll, ht]
    exact ih t (exec_inv hs ht)

end Sys2Proof.Machine
end

section
/-! The indices a command computes, and the branches that share them (20_memory.md R48, R49). -/

namespace Sys2Proof.Machine

theorem gsvarIndex_eq_xor_and_mask (cfg : Cfg) (pc gs : Nat) :
    gsvarIndex cfg pc gs = (pc &&& mask cfg.w) ^^^ (gs &&& mask cfg.w) :=
  Nat.and_xor_distrib_right

/-- Branches the dispatch cannot tell apart are one to every command. -/
theorem exec_congr_of_dispatch {s : State} {pc pc' : Nat} {o : Dir}
    (h : predictOf s.cfg s.vs pc = predictOf s.cfg s.vs pc' ∧ trainOf s.cfg s.vs pc o = trainOf s.cfg s.vs pc' o) :
    exec (.predict pc) s = exec (.predict pc') s ∧ exec (.train pc o) s = exec (.train pc' o) s := by
  obtain ⟨hpredict, htrain⟩ := h
  simp only [exec, execPredict, execTrain, hpredict, htrain, and_self]

/-! Each variant reads `pc` through its indices alone. -/

theorem gshare_congr {cfg : Cfg} {v : GshareState} {pc pc' : Nat}
    (h : gshareIndex cfg pc v.g = gshareIndex cfg pc' v.g) :
    gsharePredict cfg v pc = gsharePredict cfg v pc' ∧ gshareTrain cfg v pc = gshareTrain cfg v pc' := by
  constructor
  · rw [gsharePredict, gsharePredict, h]
  · funext o
    rw [gshareTrain, gshareTrain, h]

theorem tournament_congr {cfg : Cfg} {pc pc' : Nat} (h : pcIndex cfg pc = pcIndex cfg pc') (v : TournamentState) :
    tournPredict cfg v pc = tournPredict cfg v pc' ∧ tournTrain cfg v pc = tournTrain cfg v pc' := by
  have hlocal : tournLocal cfg v pc = tournLocal cfg v pc' := by rw [tournLocal, tournLocal, h]
  constructor
  · rw [tournPredict, tournPredict, hlocal]
  · funext o
    rw [tournTrain, tournTrain, h, hlocal]

theorem custom_congr {cfg : Cfg} {v : CustomState} {pc pc' : Nat} (h : pcIndex cfg pc = pcIndex cfg pc')
    (hgs : gsvarIndex cfg pc v.gs = gsvarIndex cfg pc' v.gs) :
    customPredict cfg v pc = customPredict cfg v pc' ∧ customTrain cfg v pc = customTrain cfg v pc' := by
  have hreads : customReads cfg v pc = customReads cfg v pc' := by rw [customReads, customReads, h, hgs]
  constructor
  · rw [customPredict, customPredict, h, hreads]
  · funext o
    rw [customTrain, customTrain, h, hgs, hreads]

/-! ### The obligations -/

/-- Settles O41: the mask distributes over the hash, and leaves a `GS` of `W` bits as it is. -/
theorem gsvarIndexIsTheGshareHash : Obligations.GsvarIndexIsTheGshareHash := by
  unfold Obligations.GsvarIndexIsTheGshareHash
  intro cfg pc gs hgs
  have hmask : gs &&& mask cfg.w = gs := by rw [and_mask, Nat.mod_eq_of_lt hgs]
  rw [gsvarIndex_eq_xor_and_mask, hmask, mask]

/-- Settles O39: the histories are within their widths, and every index is masked or a history. -/
theorem tableIndicesAreInRange : Obligations.TableIndicesAreInRange := by
  unfold Obligations.TableIndicesAreInRange
  intro s pc hs hready
  obtain ⟨-, hvs⟩ := (statusOk_ready hready).mp hs.status
  rcases varStateOk_cases hvs with ⟨-, e⟩ | ⟨v, -, e, hv⟩ | ⟨v, -, e, hv⟩ | ⟨v, -, e, hv⟩ <;> rw [e]
  · simp
  · refine ⟨?_, by simp, by simp⟩
    rintro _ ⟨⟩
    exact gshareIndex_lt hv.g
  · refine ⟨by simp, ?_, by simp⟩
    rintro _ ⟨⟩
    exact ⟨hv.g, pcIndex_lt _ _, histRead_lt hv.lh _⟩
  · refine ⟨by simp, by simp, ?_⟩
    rintro _ ⟨⟩
    exact ⟨hv.g, gsvarIndex_lt _ _ _, pcIndex_lt _ _, histRead_lt hv.lh _⟩

/-- Settles O40: for each variant the two branches have equal indices, and its commands read `pc` through them alone. -/
theorem aliasedBranchesAreOne : Obligations.AliasedBranchesAreOne := by
  unfold Obligations.AliasedBranchesAreOne
  intro s pc pc' o halias
  apply exec_congr_of_dispatch
  rcases halias with hvar | ⟨hvar, hn⟩ | ⟨hvar, hp⟩ | ⟨hvar, hp, hw⟩
  · cases s.vs <;> simp [predictOf, trainOf, variantOfTag_static hvar, staticPredict, staticTrain]
  · have hindex (g : Nat) : gshareIndex s.cfg pc g = gshareIndex s.cfg pc' g := by
      rw [gshareIndex, gshareIndex, mask, hn]
    cases s.vs <;> simp [predictOf, trainOf, variantOfTag_gshare hvar, gshare_congr (hindex _)]
  · have hindex : pcIndex s.cfg pc = pcIndex s.cfg pc' := by rw [pcIndex, pcIndex, mask, hp]
    cases s.vs <;> simp [predictOf, trainOf, variantOfTag_tournament hvar, tournament_congr hindex]
  · have hindex : pcIndex s.cfg pc = pcIndex s.cfg pc' := by rw [pcIndex, pcIndex, mask, hp]
    have hgsvar (gs : Nat) : gsvarIndex s.cfg pc gs = gsvarIndex s.cfg pc' gs := by
      rw [gsvarIndex_eq_xor_and_mask, gsvarIndex_eq_xor_and_mask, mask, hw]
    cases s.vs <;> simp [predictOf, trainOf, variantOfTag_custom hvar, custom_congr hindex (hgsvar _)]

end Sys2Proof.Machine
end

section
/-! The option counters and the choice they give (43_custom.md section 4). -/

namespace Sys2Proof.Machine

/-- Some option of a row reached from reset is selected, and every option before it is below 3 (R100, R101). -/
theorem selectOption_of_rowOk {row : Three Nat} (h : rowOk row = true) :
    ∃ k, selectOption row = some k ∧ row.get k = 3 ∧ ∀ j < k, row.get j ≤ 2 := by
  obtain ⟨⟨hglob, hgsv, hloc⟩, hthree⟩ := (rowOk_iff row).mp h
  have hle : ∀ j, row.get j ≤ 3 := by simp [Fin.forall_fin_succ, Three.get, hglob, hgsv, hloc]
  cases hsel : selectOption row with
  | none =>
    have hnone := selectOption_none.mp hsel
    rcases hthree with h0 | h1 | h2
    · exact absurd h0 (hnone 0)
    · exact absurd h1 (hnone 1)
    · exact absurd h2 (hnone 2)
  | some k =>
    obtain ⟨hk, hbefore⟩ := selectOption_some hsel
    exact ⟨k, rfl, hk, fun j hj => by have := hle j; have := hbefore j hj; omega⟩

/-- The prediction of option `k`, from the counter it reads (R94). -/
theorem customReads_get (cfg : Cfg) (v : CustomState) (pc : Nat) (k : Fin 3) :
    (customReads cfg v pc).get k = decide (2 ≤
      (match k with
        | 0 => readCtr v.tg v.g
        | 1 => readCtr v.tgs (gsvarIndex cfg pc v.gs)
        | 2 => readCtr v.tl (readHist v.lh (pcIndex cfg pc))).toNat) := by
  match k with
  | 0 => rfl
  | 1 => rfl
  | 2 => rfl

/-- With option `k` selected, `CUSTOM.PREDICT` answers its prediction (R98). -/
theorem exec_predict_custom_of_select {s : State} {v : CustomState} {pc : Nat} {k : Fin 3} (hs : s.status = .ready)
    (htag : variantOfTag s.cfg.variant = some .custom) (hv : s.vs = .custom v)
    (hk : selectOption (readRow v.s (pcIndex s.cfg pc)) = some k) :
    exec (.predict pc) s = .next (s.answer (.pred ((customReads s.cfg v pc).get k))) := by
  have hpredict : customPredict s.cfg v pc = (customReads s.cfg v pc).get k := by rw [customPredict, hk]
  exact exec_predict_of_ready hs (hv ▸ hpredict ▸ predictOf_custom pc htag v)

/-- A Custom state of the configured sizes is that of the Custom tag. -/
theorem varStateOk_custom {cfg : Cfg} {v : CustomState} (h : varStateOk cfg (.custom v)) :
    variantOfTag cfg.variant = some .custom ∧ CustomOk cfg v := by
  rcases varStateOk_cases h with ⟨-, e⟩ | ⟨_, -, e, -⟩ | ⟨_, -, e, -⟩ | ⟨_, htag, e, hv⟩ <;> cases e
  exact ⟨htag, hv⟩

/-- Settles O47: every command keeps the invariant of the Custom state `INIT` leaves, whose rows hold such counters. -/
theorem optionCountersStayBoundedWithOneAtThree : Obligations.OptionCountersStayBoundedWithOneAtThree := by
  unfold Obligations.OptionCountersStayBoundedWithOneAtThree
  intro is s s0 t hvar hinit hready h
  have hs0 := exec_init_statusOk hinit
  have htready : t.status = .ready :=
    (execAll_status_of_statusOk hs0 (by simp [hready]) h).trans hready
  obtain ⟨-, hvs⟩ := (statusOk_ready htready).mp (execAll_statusOk hs0 h)
  obtain ⟨-, hcfg, -⟩ := exec_keeps hinit
  have htag : variantOfTag t.cfg.variant = some .custom := by
    rw [execAll_cfg h, hcfg]
    exact variantOfTag_custom hvar
  rcases varStateOk_cases hvs with ⟨e, -⟩ | ⟨_, e, -⟩ | ⟨_, e, -⟩ | ⟨v, -, e, hv⟩
  · cases htag.symm.trans e
  · cases htag.symm.trans e
  · cases htag.symm.trans e
  · refine ⟨v, e, fun r => ?_⟩
    obtain ⟨⟨hglob, hgsv, hloc⟩, hthree⟩ := (rowOk_iff _).mp (rowRead_ok hv.s r)
    exact ⟨hglob, hgsv, hloc, hthree⟩

/-- Settles O48: under the invariant the bucket's row holds a 3, so an option is selected. -/
theorem customPredictNeverFallsBack : Obligations.CustomPredictNeverFallsBack := by
  unfold Obligations.CustomPredictNeverFallsBack
  intro s v pc hs hready hv
  obtain ⟨-, hvs⟩ := (statusOk_ready hready).mp hs.status
  obtain ⟨htag, hok⟩ := varStateOk_custom (hv ▸ hvs)
  obtain ⟨k, hsel, hk, hbefore⟩ := selectOption_of_rowOk (rowRead_ok hok.s (pcIndex s.cfg pc))
  refine ⟨k, hk, hbefore, ?_⟩
  rw [exec_predict_custom_of_select hready htag hv hsel, customReads_get]
  rfl

/-- Settles O49: the selected option is at 3, and `k` alone is. -/
theorem aSingleConfidentOptionDecides : Obligations.ASingleConfidentOptionDecides := by
  unfold Obligations.ASingleConfidentOptionDecides
  intro s v pc k hready hvar hv hsingle
  have hsel : selectOption (readRow v.s (pcIndex s.cfg pc)) = some k := by
    cases hsel : selectOption (readRow v.s (pcIndex s.cfg pc)) with
    | none => exact absurd ((hsingle k).mpr rfl) (selectOption_none.mp hsel k)
    | some j => rw [(hsingle j).mp (selectOption_some hsel).1]
  rw [exec_predict_custom_of_select hready (variantOfTag_custom hvar) hv hsel, customReads_get]
  rfl

end Sys2Proof.Machine
end

section
/-! The histories after `INIT` are the recent outcomes (40_primitives.md section 2). -/

namespace Sys2Proof.Machine

/-! ### A history as a list of outcomes -/

/-- The history `h` of `k` bits holds the outcomes `os`, oldest first, as bit `j` the `j`-th before the last, 0 where there is
none (R76). -/
def HoldsRecent (k h : Nat) (os : List Dir) : Prop :=
  ∀ j, h.testBit j = (decide (j < k) && os.reverse.getD j false)

theorem holdsRecent_zero (k : Nat) : HoldsRecent k 0 [] := by
  intro j
  simp

/-- Shifting an outcome into a history appends it to the outcomes held (R76). -/
theorem HoldsRecent.shiftHist {k h : Nat} {os : List Dir} (hh : HoldsRecent k h os) (o : Dir) :
    HoldsRecent k (shiftHist h o k) (os ++ [o]) := by
  intro j
  rw [shiftHist_testBit, List.reverse_append, List.reverse_singleton, List.singleton_append]
  cases j with
  | zero => rfl
  | succ j =>
    rw [if_neg (Nat.succ_ne_zero j), Nat.add_sub_cancel, hh j, List.getD_cons_succ]
    by_cases hj : j + 1 < k
    · simp [hj, Nat.lt_of_succ_lt hj]
    · simp [hj]

/-! ### The outcomes of a list of commands -/

theorem outcomesOf_append (is js : List Instr) : outcomesOf (is ++ js) = outcomesOf is ++ outcomesOf js :=
  List.filterMap_append

theorem outcomesAt_append (cfg : Cfg) (r : Nat) (is js : List Instr) :
    outcomesAt cfg r (is ++ js) = outcomesAt cfg r is ++ outcomesAt cfg r js :=
  List.filterMap_append

/-- A `NOP` or a `PREDICT` adds no outcome. -/
theorem outcomes_of_nop_or_predict {i : Instr} (h : i = .nop ∨ ∃ pc, i = .predict pc) :
    outcomesOf [i] = [] ∧ ∀ cfg r, outcomesAt cfg r [i] = [] := by
  rcases h with rfl | ⟨pc, rfl⟩
  · exact ⟨rfl, fun _ _ => rfl⟩
  · exact ⟨rfl, fun _ _ => rfl⟩

theorem outcomesAt_train (cfg : Cfg) (r pc : Nat) (o : Dir) :
    outcomesAt cfg r [.train pc o] = if pcIndex cfg pc = r then [o] else [] := by
  by_cases h : pcIndex cfg pc = r <;> simp [outcomesAt, h]

/-! ### Runs from `INIT` -/

/-- What holds of each initial variant state, what each training carries on, and what `NOP` and `PREDICT` do not touch, holds
of the variant state after an `INIT` and any commands but another `INIT`; a failed `INIT` leaves no variant state. -/
theorem vs_after_init {Q : List Instr → VarState → Prop} {s s0 : State} (hinit : ∀ var, Q [] (initVarState var))
    (hquiet : ∀ is i vs, (i = .nop ∨ ∃ pc, i = .predict pc) → Q is vs → Q (is ++ [i]) vs)
    (htrain : ∀ is vs vs' pc o, Q is vs → trainOf s.cfg vs pc o = some vs' → Q (is ++ [.train pc o]) vs')
    (h0 : exec .init s = .next s0) {is : List Instr} (his : ∀ i ∈ is, i ≠ .init) {t : State}
    (h : execAll is s0 = .next t) : t.vs = .absent ∨ (t.status = .ready ∧ Q is t.vs) := by
  obtain ⟨-, hcfg0, -⟩ := exec_keeps h0
  induction is using List.reverseRecOn generalizing t with
  | nil =>
    cases h
    rcases exec_init_next h0 with ⟨var, -, -, rfl⟩ | ⟨-, rfl⟩
    · exact .inr ⟨rfl, hinit var⟩
    · exact .inl rfl
  | append_singleton is i ih =>
    obtain ⟨u, hu, hi⟩ := (execAll_concat is i s0 t).mp h
    have hcfg : u.cfg = s.cfg := (execAll_cfg hu).trans hcfg0
    have hprev := ih (fun k hk => his k (List.mem_append_left _ hk)) hu
    cases i with
    | nop =>
      cases execNop_next hi
      exact hprev.imp id fun ⟨hready, hq⟩ => ⟨hready, hquiet _ _ _ (.inl rfl) hq⟩
    | predict pc =>
      obtain ⟨r, rfl⟩ := exec_predict_next hi
      exact hprev.imp id fun ⟨hready, hq⟩ => ⟨hready, hquiet _ _ _ (.inr ⟨pc, rfl⟩) hq⟩
    | train pc o =>
      rcases execTrain_next hi with ⟨f, hf, rfl⟩ | ⟨vs, hready, hvs, rfl⟩
      · refine hprev.imp id fun ⟨hready, _⟩ => ?_
        cases hf.symm.trans (statusFault_none.mpr hready)
      · rcases hprev with habsent | ⟨-, hq⟩
        · rw [habsent] at hvs
          rcases trainOf_cases hvs with ⟨e, -⟩ | ⟨_, e, -⟩ | ⟨_, e, -⟩ | ⟨_, e, -⟩ <;> cases e
        · exact .inr ⟨hready, htrain _ _ _ _ _ hq (hcfg ▸ hvs)⟩
    | init => exact absurd rfl (his .init (by simp))

/-! ### The two kinds of history -/

/-- The global histories of a variant state hold the outcomes `os`. -/
def GlobalsHold (cfg : Cfg) (os : List Dir) : VarState → Prop
  | .absent => True
  | .static => True
  | .gshare v => HoldsRecent cfg.n v.g os
  | .tournament v => HoldsRecent cfg.n v.g os
  | .custom v => HoldsRecent cfg.n v.g os ∧ HoldsRecent cfg.w v.gs os

/-- The local histories of a variant state hold, at each PC-index `r`, the outcomes `os r`. -/
def LocalsHold (cfg : Cfg) (os : Nat → List Dir) : VarState → Prop
  | .absent => True
  | .static => True
  | .gshare _ => True
  | .tournament v => ∀ r, HoldsRecent cfg.l (readHist v.lh r) (os r)
  | .custom v => ∀ r, HoldsRecent cfg.l (readHist v.lh r) (os r)

theorem globalsHold_initVarState (cfg : Cfg) (var : Variant) : GlobalsHold cfg [] (initVarState var) := by
  cases var with
  | static => trivial
  | gshare => exact holdsRecent_zero _
  | tournament => exact holdsRecent_zero _
  | custom => exact ⟨holdsRecent_zero _, holdsRecent_zero _⟩

theorem localsHold_initVarState (cfg : Cfg) (var : Variant) : LocalsHold cfg (fun _ => []) (initVarState var) := by
  cases var with
  | static => trivial
  | gshare => trivial
  | tournament => exact fun _ => holdsRecent_zero _
  | custom => exact fun _ => holdsRecent_zero _

theorem globalsHold_train {cfg : Cfg} {vs vs' : VarState} {os : List Dir} {pc : Nat} {o : Dir}
    (hvs : GlobalsHold cfg os vs) (h : trainOf cfg vs pc o = some vs') : GlobalsHold cfg (os ++ [o]) vs' := by
  rcases trainOf_cases h with ⟨rfl, rfl⟩ | ⟨v, rfl, rfl⟩ | ⟨v, rfl, rfl⟩ | ⟨v, rfl, rfl⟩
  · trivial
  · exact HoldsRecent.shiftHist hvs o
  · exact HoldsRecent.shiftHist hvs o
  · obtain ⟨hg, hgs⟩ := hvs
    exact ⟨hg.shiftHist o, hgs.shiftHist o⟩

/-- Writing the shifted history at the trained PC-index appends the outcome there and nowhere else. -/
theorem holdsRecent_writeHist {cfg : Cfg} {lh : Table Nat} {is : List Instr} (pc : Nat) (o : Dir)
    (h : ∀ r, HoldsRecent cfg.l (readHist lh r) (outcomesAt cfg r is)) (r : Nat) :
    HoldsRecent cfg.l
      (readHist (writeHist lh (pcIndex cfg pc) (shiftHist (readHist lh (pcIndex cfg pc)) o cfg.l)) r)
      (outcomesAt cfg r (is ++ [.train pc o])) := by
  rw [readHist_writeHist, outcomesAt_append, outcomesAt_train]
  by_cases hr : r = pcIndex cfg pc
  · subst hr
    rw [if_pos rfl, if_pos rfl]
    exact (h _).shiftHist o
  · rw [if_neg hr, if_neg (Ne.symm hr), List.append_nil]
    exact h r

theorem localsHold_train {cfg : Cfg} {vs vs' : VarState} {is : List Instr} {pc : Nat} {o : Dir}
    (hvs : LocalsHold cfg (fun r => outcomesAt cfg r is) vs) (h : trainOf cfg vs pc o = some vs') :
    LocalsHold cfg (fun r => outcomesAt cfg r (is ++ [.train pc o])) vs' := by
  rcases trainOf_cases h with ⟨rfl, rfl⟩ | ⟨v, rfl, rfl⟩ | ⟨v, rfl, rfl⟩ | ⟨v, rfl, rfl⟩
  · trivial
  · trivial
  · exact holdsRecent_writeHist pc o hvs
  · exact holdsRecent_writeHist pc o hvs

theorem globalsHold_after_init {s s0 t : State} {is : List Instr} (his : ∀ i ∈ is, i ≠ .init)
    (h0 : exec .init s = .next s0) (h : execAll is s0 = .next t) : GlobalsHold s.cfg (outcomesOf is) t.vs := by
  have hrun := vs_after_init (Q := fun is vs => GlobalsHold s.cfg (outcomesOf is) vs)
    (globalsHold_initVarState s.cfg)
    (fun is i vs hi hq => by rwa [outcomesOf_append, (outcomes_of_nop_or_predict hi).1, List.append_nil])
    (fun is vs vs' pc o hq hvs => by rw [outcomesOf_append]; exact globalsHold_train hq hvs)
    h0 his h
  rcases hrun with e | ⟨-, hq⟩
  · rw [e]; trivial
  · exact hq

theorem localsHold_after_init {s s0 t : State} {is : List Instr} (his : ∀ i ∈ is, i ≠ .init)
    (h0 : exec .init s = .next s0) (h : execAll is s0 = .next t) :
    LocalsHold s.cfg (fun r => outcomesAt s.cfg r is) t.vs := by
  have hrun := vs_after_init (Q := fun is vs => LocalsHold s.cfg (fun r => outcomesAt s.cfg r is) vs)
    (localsHold_initVarState s.cfg)
    (fun is i vs hi hq => by
      simpa only [outcomesAt_append, (outcomes_of_nop_or_predict hi).2, List.append_nil] using hq)
    (fun is vs vs' pc o hq hvs => localsHold_train hq hvs)
    h0 his h
  rcases hrun with e | ⟨-, hq⟩
  · rw [e]; trivial
  · exact hq

/-- Settles O50: each `TRAIN` shifts its outcome into the histories, which `INIT` left at 0. -/
theorem globalHistoriesAreTheRecentOutcomes : Obligations.GlobalHistoriesAreTheRecentOutcomes := by
  unfold Obligations.GlobalHistoriesAreTheRecentOutcomes
  intro is s s0 t his h0 h
  have hglobals := globalsHold_after_init his h0 h
  refine ⟨fun v hv j => ?_, fun v hv j => ?_, fun v hv j => ?_⟩ <;> rw [hv] at hglobals
  · exact hglobals j
  · exact hglobals j
  · obtain ⟨hg, hgs⟩ := hglobals
    exact ⟨hg j, hgs j⟩

/-- Settles O51: each `TRAIN` shifts its outcome into the local history of its own PC-index. -/
theorem localHistoriesAreTheRecentOutcomesThere : Obligations.LocalHistoriesAreTheRecentOutcomesThere := by
  unfold Obligations.LocalHistoriesAreTheRecentOutcomesThere
  intro is s s0 t his h0 h
  have hlocals := localsHold_after_init his h0 h
  refine ⟨fun v hv r j => ?_, fun v hv r j => ?_⟩ <;> rw [hv] at hlocals
  · exact hlocals r j
  · exact hlocals r j

end Sys2Proof.Machine
end

section
/-! The choice counters while the sub-predictors agree (42_tournament.md R92). -/

namespace Sys2Proof.Machine

/-- Every choice counter of a Tournament state is at its initial value 1. -/
def ChoiceAtOne (vs : VarState) : Prop :=
  ∀ v, vs = .tournament v → ∀ g, (readChoice v.c g).toNat = 1

/-- The two predictions of a Tournament state at `pc` are equal. -/
def SubPredictorsAgree (cfg : Cfg) (vs : VarState) (pc : Nat) : Prop :=
  ∀ v, vs = .tournament v → tournGlobal v = tournLocal cfg v pc

theorem choiceAtOne_initVarState (var : Variant) : ChoiceAtOne (initVarState var) := by
  intro v hv g
  cases var with
  | tournament => cases hv; rfl
  | static => cases hv
  | gshare => cases hv
  | custom => cases hv

/-- Equal predictions are both right or both wrong, which scores nothing (R89). -/
theorem choiceAtOne_train {cfg : Cfg} {vs vs' : VarState} {pc : Nat} {o : Dir} (hc : ChoiceAtOne vs)
    (hagree : SubPredictorsAgree cfg vs pc) (h : trainOf cfg vs pc o = some vs') : ChoiceAtOne vs' := by
  rcases trainOf_cases h with ⟨rfl, rfl⟩ | ⟨v, rfl, rfl⟩ | ⟨v, rfl, rfl⟩ | ⟨v, rfl, rfl⟩
  · exact fun _ e => by cases e
  · exact fun _ e => by cases e
  · rintro _ ⟨⟩ g
    have hscore : choiceUpdate (readChoice v.c v.g) (tournGlobal v == o) (tournLocal cfg v pc == o) =
        readChoice v.c v.g := by
      rw [choiceUpdate_eq_advance, if_pos (by rw [hagree v rfl])]
    rw [tournTrain, hscore, readChoice_writeChoice]
    split_ifs
    · exact hc v rfl v.g
    · exact hc v rfl g
  · exact fun _ e => by cases e

theorem exec_init_choiceAtOne {s t : State} (h : exec .init s = .next t) : ChoiceAtOne t.vs := by
  rcases exec_init_next h with ⟨var, -, -, rfl⟩ | ⟨-, rfl⟩
  · exact choiceAtOne_initVarState var
  · exact fun _ e => by cases e

/-- Every command keeps the choice counters at 1, a `TRAIN` where the two predictions agree. -/
theorem exec_choiceAtOne {i : Instr} {s t : State} (hc : ChoiceAtOne s.vs)
    (hagree : ∀ pc o, i = .train pc o → SubPredictorsAgree s.cfg s.vs pc) (h : exec i s = .next t) :
    ChoiceAtOne t.vs := by
  cases i with
  | nop => cases execNop_next h; exact hc
  | predict pc => obtain ⟨r, rfl⟩ := exec_predict_next h; exact hc
  | train pc o =>
    rcases execTrain_next h with ⟨f, -, rfl⟩ | ⟨vs, -, hvs, rfl⟩
    · exact hc
    · exact choiceAtOne_train hc (hagree pc o rfl) hvs
  | init => exact exec_init_choiceAtOne h

/-- Settles O53: a step runs the command of the oldest word on the variant state as it is. -/
theorem stepKeepsChoiceWhileSubPredictorsAgree : Obligations.StepKeepsChoiceWhileSubPredictorsAgree := by
  unfold Obligations.StepKeepsChoiceWhileSubPredictorsAgree
  intro s t hc hagree h
  rcases step_next h with ⟨-, rfl⟩ | ⟨w, rest, i, hport, hi, hexec⟩
  · exact hc
  · refine exec_choiceAtOne (s := s.withPort rest) hc (fun pc o htrain v hv => ?_) hexec
    exact hagree w rest pc o v hport (htrain ▸ hi) hv

/-- Settles O52, by induction on the commands from the last: `INIT` leaves the counters at 1, and each command keeps them. -/
theorem choiceStaysWhileSubPredictorsAgree : Obligations.ChoiceStaysWhileSubPredictorsAgree := by
  unfold Obligations.ChoiceStaysWhileSubPredictorsAgree
  intro is s s0 t h0 h hagree
  change ChoiceAtOne t.vs
  induction is using List.reverseRecOn generalizing t with
  | nil =>
    cases h
    exact exec_init_choiceAtOne h0
  | append_singleton is i ih =>
    obtain ⟨u, hu, hi⟩ := (execAll_concat is i s0 t).mp h
    have hprev : ChoiceAtOne u.vs := ih u hu fun before after pc o s1 v1 e =>
      hagree before (after ++ [i]) pc o s1 v1 (by rw [e]; simp)
    refine exec_choiceAtOne hprev (fun pc o htrain v hv => ?_) hi
    exact hagree is [] pc o u v (by rw [htrain]) hu hv

end Sys2Proof.Machine
end

section
/-! The call protocol (70_reset_and_hazards.md R127, R128) and what it gives the global histories. -/

namespace Sys2Proof.Machine

/-- The list is a concatenation of branches (R127). -/
def WholeBranches (is : List Instr) : Prop := ∃ bs : List (Nat × Dir), is = bs.flatMap branchCommands

theorem wholeBranches_nil : WholeBranches [] := ⟨[], rfl⟩

/-- A `PREDICT` that opens whole branches is followed by the `TRAIN` of its branch. -/
theorem wholeBranches_predict_cons {pc : Nat} {is : List Instr} :
    WholeBranches (.predict pc :: is) ↔ ∃ o rest, is = .train pc o :: rest ∧ WholeBranches rest := by
  constructor
  · rintro ⟨bs, h⟩
    cases bs with
    | nil => cases h
    | cons b bs =>
      obtain ⟨q, o⟩ := b
      cases h
      exact ⟨o, _, rfl, bs, rfl⟩
  · rintro ⟨o, _, rfl, bs, rfl⟩
    exact ⟨(pc, o) :: bs, rfl⟩

/-- A `TRAIN` opens no branch. -/
theorem not_wholeBranches_train_cons {pc : Nat} {o : Dir} {is : List Instr} :
    ¬ WholeBranches (.train pc o :: is) := by
  rintro ⟨bs, h⟩
  cases bs with
  | nil => cases h
  | cons b bs => cases h

/-- A list follows the protocol exactly when its `PREDICT`s and `TRAIN`s are whole branches, the `PREDICT` that is pending
before it counted in. -/
theorem followsProtocol_iff (pending : Option Nat) (is : List Instr) :
    followsProtocol pending is = true ↔ WholeBranches (pending.toList.map Instr.predict ++ branchPart is) := by
  induction is generalizing pending with
  | nil =>
    cases pending with
    | none => exact iff_of_true rfl wholeBranches_nil
    | some q => simp [followsProtocol, branchPart, wholeBranches_predict_cons]
  | cons i is ih =>
    cases i with
    | nop => exact ih pending
    | init => exact ih pending
    | predict pc =>
      cases pending with
      | none => exact ih (some pc)
      | some q => simp [followsProtocol, branchPart, wholeBranches_predict_cons]
    | train pc o =>
      cases pending with
      | none => simp [followsProtocol, branchPart, not_wholeBranches_train_cons]
      | some q =>
        have hrest : followsProtocol none is = true ↔ WholeBranches (branchPart is) := ih none
        rw [followsProtocol, Bool.and_eq_true, hrest, beq_iff_eq, Option.some.injEq]
        refine Iff.trans ⟨?_, ?_⟩ wholeBranches_predict_cons.symm
        · rintro ⟨rfl, hwhole⟩
          exact ⟨o, _, rfl, hwhole⟩
        · rintro ⟨o', rest, ⟨⟩, hwhole⟩
          exact ⟨rfl, hwhole⟩

/-- Settles O37: the case with no `PREDICT` pending. -/
theorem theProtocolIsASequenceOfBranches : Obligations.TheProtocolIsASequenceOfBranches := by
  unfold Obligations.TheProtocolIsASequenceOfBranches
  intro is
  exact followsProtocol_iff none is

/-- Before a `PREDICT` no branch is open. -/
theorem followsProtocol_of_append_predict {pending : Option Nat} {before after : List Instr} {pc : Nat}
    (h : followsProtocol pending (before ++ .predict pc :: after) = true) : followsProtocol pending before = true := by
  induction before generalizing pending with
  | nil =>
    rw [List.nil_append, followsProtocol, Bool.and_eq_true] at h
    exact h.1
  | cons i before ih =>
    cases i with
    | nop => exact ih h
    | init => exact ih h
    | predict q =>
      rw [List.cons_append, followsProtocol, Bool.and_eq_true] at h
      rw [followsProtocol, Bool.and_eq_true]
      exact ⟨h.1, ih h.2⟩
    | train q o =>
      rw [List.cons_append, followsProtocol, Bool.and_eq_true] at h
      rw [followsProtocol, Bool.and_eq_true]
      exact ⟨h.1, ih h.2⟩

/-- The outcomes of a list are those of its `TRAIN`s, which `branchPart` keeps. -/
theorem outcomesOf_branchPart (is : List Instr) : outcomesOf (branchPart is) = outcomesOf is := by
  rw [outcomesOf, outcomesOf, branchPart, List.filterMap_filter]
  congr 1
  funext i
  cases i <;> rfl

theorem outcomesOf_branches (bs : List (Nat × Dir)) : outcomesOf (bs.flatMap branchCommands) = bs.map (·.2) := by
  induction bs with
  | nil => rfl
  | cons b bs ih =>
    rw [List.flatMap_cons, outcomesOf_append, ih]
    rfl

/-- Settles O54: the branches before the `PREDICT` are whole, and their outcomes are those of the `TRAIN`s there. -/
theorem predictsSeeEveryEarlierBranch : Obligations.PredictsSeeEveryEarlierBranch := by
  unfold Obligations.PredictsSeeEveryEarlierBranch
  intro before after pc s s0 t hprotocol hbefore h0 h
  obtain ⟨bs, hbs⟩ := (theProtocolIsASequenceOfBranches before).mp (followsProtocol_of_append_predict hprotocol)
  have houtcomes : outcomesOf before = bs.map (·.2) := by
    rw [← outcomesOf_branchPart, hbs, outcomesOf_branches]
  refine ⟨bs, hbs, ?_⟩
  rw [← houtcomes]
  exact globalHistoriesAreTheRecentOutcomes before s s0 t hbefore h0 h

end Sys2Proof.Machine
end
